-- ==== Sys2Proof/Word.lean ====
section
/-! DEFINITION. The word types of the block: bytes and the 72-bit window. -/

namespace Sys2Proof

/-- A byte as the host port and the window deliver it (`20_memory.md` rule R41). -/
abbrev Byte := BitVec 8

/-- The decoded window `w[0..71]`; `w[0]` is the most significant bit (`10_state.md` rule R14). -/
abbrev Window := BitVec 72

/-- The sequencer's selector register `phase`, 4 bits (`10_state.md` rule R15). -/
abbrev Phase := BitVec 4

end Sys2Proof
end

