-- ==== Sys2Proof/Syntax.lean ====
section
/-! DEFINITION. The instructions of the block: the eleven operations of its hardwired sequencer
(`30_encoding.md` rule R66), one constructor per row of `spec/opcode_table.json`. None has an operand field. -/

namespace Sys2Proof

/-- The operations of the sequencer (`30_encoding.md` rule R66). -/
inductive Instr where
  /-- IDLE: wait for `start` (rule R80). -/
  | idle
  /-- INVERT: complement the buffer (rule R82). -/
  | invert
  /-- SCAN: find the next candidate or finish (rule R91). -/
  | scan
  /-- MDEC: Manchester-decode the window (rule R101). -/
  | mdec
  /-- SYNCCHK: compare the sync word (rule R111). -/
  | syncchk
  /-- CRCCHK: compute and test the CRC (rule R116). -/
  | crcchk
  /-- DESCR: descramble the payload (rule R126). -/
  | descr
  /-- EXTRACT: compute the reading fields (rule R136). -/
  | extract
  /-- EMIT: present the reading, count it (rule R151). -/
  | emit
  /-- ADVANCE: move the cursor 2 bits past the candidate (rule R83). -/
  | advance
  /-- DONE: hold the results, wait for `start` (rule R84). -/
  | done
  deriving DecidableEq, Repr

end Sys2Proof
end

