-- ==== Sys2Proof/WellFormed.lean ====
section
/-! DEFINITION. Well-formedness of what the sequencer decodes. An operation has no operand field
(`30_encoding.md` rule R66), so every `Instr` is well formed; a selector value is well formed when it selects an
operation (rule R68). -/

namespace Sys2Proof

/-- Rule R68: the selector values 0 to 10 select an operation, 11 to 15 select none. -/
def Phase.wf (p : Phase) : Bool := decide (p ≤ 10#4)

/-- Rule R66: no operation has an operand field, so there is nothing to check. -/
def Instr.wf : Instr → Bool
  | .idle => true
  | .invert => true
  | .scan => true
  | .mdec => true
  | .syncchk => true
  | .crcchk => true
  | .descr => true
  | .extract => true
  | .emit => true
  | .advance => true
  | .done => true

end Sys2Proof
end

