-- ==== Sys2Proof/Decode.lean ====
section
/-! DEFINITION. The decoder: from a value of `phase` to the operation it selects (`30_encoding.md` rule R66), and the
encoder. -/

namespace Sys2Proof

/-- Why a selector value is rejected. -/
inductive DecodeError where
  /-- Rule R68: a value 11 to 15 selects no operation. -/
  | reservedPhase (p : Phase)
  deriving DecidableEq, Repr

/-- One row of the operation map. -/
structure OpRow where
  mask : Phase
  value : Phase
  instr : Instr
  deriving DecidableEq, Repr

/-- The operation map of rule R66 (`spec/opcode_table.json`: `mask = 0xF` in every row). -/
def opTable : List OpRow :=
  [⟨0xF#4, 0b0000#4, .idle⟩, ⟨0xF#4, 0b0001#4, .invert⟩, ⟨0xF#4, 0b0010#4, .scan⟩, ⟨0xF#4, 0b0011#4, .mdec⟩,
   ⟨0xF#4, 0b0100#4, .syncchk⟩, ⟨0xF#4, 0b0101#4, .crcchk⟩, ⟨0xF#4, 0b0110#4, .descr⟩, ⟨0xF#4, 0b0111#4, .extract⟩,
   ⟨0xF#4, 0b1000#4, .emit⟩, ⟨0xF#4, 0b1001#4, .advance⟩, ⟨0xF#4, 0b1010#4, .done⟩]

/-- The first row whose masked pattern is that of `p`. -/
def lookupRow (p : Phase) : List OpRow → Except DecodeError Instr
  | [] => .error (.reservedPhase p)
  | r :: rs => if p &&& r.mask = r.value then .ok r.instr else lookupRow p rs

/-- Rule R66: the operation a selector value selects; the reserved values are rejected (rule R68). -/
def decode (p : Phase) : Except DecodeError Instr := lookupRow p opTable

/-- The selector value of an operation, the first columns of rule R66's table. -/
def encode : Instr → Phase
  | .idle => 0b0000#4
  | .invert => 0b0001#4
  | .scan => 0b0010#4
  | .mdec => 0b0011#4
  | .syncchk => 0b0100#4
  | .crcchk => 0b0101#4
  | .descr => 0b0110#4
  | .extract => 0b0111#4
  | .emit => 0b1000#4
  | .advance => 0b1001#4
  | .done => 0b1010#4

/-- The bits of a table word that are the selector: `nbits` bits are given, `phase` holds the low 4 (log 14). -/
def phaseOfWord (nbits w : Nat) : Phase := BitVec.ofNat 4 (w % 2 ^ nbits)

/-- The operation the decoder reads from a table word (bit 0 the least significant). -/
def decodeTableWord (nbits w : Nat) : Option Instr :=
  match decode (phaseOfWord nbits w) with
  | .ok i => some i
  | .error _ => none

end Sys2Proof
end

