-- ==== Sys2Proof/Config.lean ====
section
/-! DEFINITION. The parameters of `00_scope.md` rule R4, each under its own name, and the free value of an
unspecified host read. The open parameter `NBITS_MAX` is not here: it is the field `nbitsMax` of State (log 1). -/

namespace Sys2Proof.Config

/-- `PAT`, the preamble pattern `0x55 0x55 0xA9`, MSB-first (rules R4, R42, R90). -/
def pat : BitVec 24 := 0x5555A9#24

/-- `PAT_BITS`. -/
def patBits : Nat := 24

/-- `ADV`: bits the cursor moves past a candidate. -/
def adv : Nat := 2

/-- `MIN_REMAIN`: a candidate at `p` is tried only if `p + 80 <= nbits`. -/
def minRemain : Nat := 80

/-- `WIN_BITS`: logical bits of one window. -/
def winBits : Nat := 72

/-- `RAW_BITS`: raw bits one window consumes. -/
def rawBits : Nat := 2 * winBits

/-- `SYNC`, the sync word `0x19CF`. -/
def sync : BitVec 16 := 0x19CF#16

/-- `CRC_POLY`. -/
def crcPoly : BitVec 16 := 0x8005#16

/-- `CRC_INIT`. -/
def crcInit : BitVec 16 := 0x0000#16

/-- `CRC_SPAN`, first window byte covered by the CRC. -/
def crcFirst : Nat := 2

/-- `CRC_SPAN`, number of window bytes covered by the CRC (bytes 2 to 8). -/
def crcCount : Nat := 7

/-- `TEMP_OFFSET`. -/
def tempOffset : BitVec 9 := 55#9

/-- `PRESS_DIV`. -/
def pressDiv : Nat := 64

/-- `WIN_OFFSET`: the window starts at `cand + 16` (decision D11 of the spec; log 15). -/
def winOffset : Nat := 16

/-- `MANCH_SECOND`: the logical bit is the second raw bit of its pair (decision D12 of the spec; log 15). -/
def manchSecond : Bool := true

/-- `ROW`: the one row the block holds (decision D5 of the spec). -/
def row : Nat := 0

/-- `W_POS`: the smallest `w` with `2^w > NBITS_MAX + 160` (rule R4, decisions D7 and D18), for a given `NBITS_MAX`. -/
def wPos (nbitsMax : Nat) : Nat := Nat.log2 (nbitsMax + 160) + 1

/-- DESIGN CHOICE (log 11): the unspecified byte on `hb_rdata` (`93_implementation_defined.md` U5, U8). Nothing is known
of its value; the index is `State.freeIndex`. -/
opaque freeByte : Nat → Byte

end Sys2Proof.Config
end

