-- ==== Sys2Proof/Machine/State.lean ====
section
/-! DEFINITION. The state of the block (`10_state.md` rules R10, R11), as plain data, and the machine after reset
(rule R23). -/

namespace Sys2Proof.Machine

/-- The bit buffer `BUF` in its byte view (`20_memory.md` rule R41): the bytes that hold a value, addresses strictly
rising. A byte that is not listed has no value (U4, U8; log 7). -/
abbrev Memory := List Host.Cell

/-- The five bytes `d[0..4]` (`10_state.md` rule R10, `30_encoding.md` rule R63). -/
structure Payload where
  d0 : Byte
  d1 : Byte
  d2 : Byte
  d3 : Byte
  d4 : Byte
  deriving DecidableEq, Repr

/-- Format READING (`30_encoding.md` rule R65): the six `rd_*` registers, and the record the sink receives. -/
structure Reading where
  /-- `rd_id` -/
  id : BitVec 16
  /-- `rd_flags`, format FLAGS (rule R64) -/
  flags : BitVec 4
  /-- `rd_battery_low`, true = low -/
  batteryLow : Bool
  /-- `rd_pressure_q6`, unsigned fixed point with 6 fraction bits, bar -/
  pressureQ6 : Byte
  /-- `rd_pressure_loss_alarm`, true = alarm -/
  pressureLossAlarm : Bool
  /-- `rd_temp_c`, two's complement, °C -/
  tempC : BitVec 9
  deriving DecidableEq, Repr

/-- The values of `last_reason` (`10_state.md` rules R17, R19); the value 3 is never written. -/
inductive Reason where
  /-- 0 NONE -/
  | none
  /-- 1 SANITY -/
  | sanity
  /-- 2 INTEGRITY -/
  | integrity
  deriving DecidableEq, Repr

/-- The values of the input ports of `10_state.md` rule R18 at one clock edge (`clk` itself is the step). -/
structure Pins where
  /-- `rst` -/
  rst : Bool
  /-- `start` -/
  start : Bool
  /-- `nbits_in` -/
  nbitsIn : Nat
  /-- `hb_we` -/
  hbWe : Bool
  /-- `hb_addr` -/
  hbAddr : Nat
  /-- `hb_wdata` -/
  hbWdata : Byte
  deriving DecidableEq, Repr

/-- The complete state: rule R10's table, the ghost list of rule R11, and the model's own fields (log 1, 3, 11, 18). -/
structure State where
  /-- `BUF` -/
  buf : Memory
  /-- `nbits` -/
  nbits : Nat
  /-- `phase` -/
  phase : Phase
  /-- `cursor` -/
  cursor : Nat
  /-- `cand` -/
  cand : Nat
  /-- `win` -/
  win : Window
  /-- `win_len` -/
  winLen : Nat
  /-- `crc` -/
  crc : BitVec 16
  /-- `d[0..4]` -/
  d : Payload
  /-- `rd_*` -/
  rd : Reading
  /-- `event_count` -/
  eventCount : Nat
  /-- `last_reason` -/
  lastReason : Reason
  /-- `emitted`, the sink's list (rule R11) -/
  emitted : List Reading
  /-- The bytes of `BUF` that nobody wrote since the last reset, although they hold a value from before it
  (`10_state.md` rules R23, R25; log 18). -/
  stale : List Nat
  /-- The input ports at the edges to come, the next one first (log 3). -/
  inputs : List Pins
  /-- The open parameter `NBITS_MAX` (rule R4; log 1). No step changes it. -/
  nbitsMax : Nat
  /-- Selects the free value of an unspecified host read (log 11). -/
  freeIndex : Nat
  deriving DecidableEq, Repr

/-- Why the machine stops with a fault. -/
inductive Fault where
  /-- An operation reads a bit of the buffer below `nbits` that holds no value (`93_implementation_defined.md` U4).
  Raised by INVERT, SCAN and MDEC; no run from a well-formed START meets it. Safe. -/
  | unwrittenBit
  /-- `phase` holds 11 to 15 and selects no operation: stuck (`93_implementation_defined.md` U6). Raised by the step's
  fetch. Safe. -/
  | noOperation (p : Phase)
  /-- An honoured host write addresses a byte that holds no position below `NBITS_MAX` (log 10). Raised by the host
  port. Safe. -/
  | hostByteMissing (a : Nat)
  deriving DecidableEq, Repr

/-- Why the machine makes no claim. -/
inductive Refusal where
  /-- An instruction that has no meaning yet. No arm answers it. Safe. -/
  | notModelled (mnemonic : String)
  /-- START with `nbits_in > NBITS_MAX` (`10_state.md` rule R25 (a), U3). Raised by IDLE and DONE. Safe. -/
  | startTooLong
  /-- START when a bit below `nbits_in` was not written since reset (`10_state.md` rule R25 (b), U4, U9). Raised by IDLE and DONE.
  Safe. -/
  | startUnwritten
  deriving DecidableEq, Repr

/-- Reset value of `d[0..4]` (rule R23). -/
def Payload.zero : Payload := ⟨0#8, 0#8, 0#8, 0#8, 0#8⟩

/-- Reset value of the `rd_*` registers (rule R23). -/
def Reading.zero : Reading := ⟨0#16, 0#4, false, 0#8, false, 0#9⟩

/-- The machine right after reset (`10_state.md` rule R23): every register zero, IDLE, no byte of the buffer written.
`emitted`, `stale`, `inputs`, `nbitsMax` and `freeIndex` are the model's choices (log 13, 18, 3, 1, 11). -/
def State.reset : State :=
  { buf := [], nbits := 0, phase := 0#4, cursor := 0, cand := 0, win := 0#72, winLen := 0, crc := 0#16,
    d := Payload.zero, rd := Reading.zero, eventCount := 0, lastReason := .none, emitted := [], stale := [],
    inputs := [], nbitsMax := 65536, freeIndex := 0 }

end Sys2Proof.Machine
end

