-- ==== Sys2Proof/Machine/Ops.lean ====
section
/-! DEFINITION. The named operations over the bit buffer and the registers: access to the buffer
(`20_memory.md`), raising a rejection and resuming from one (`60_exceptions.md` rules R164, R165), START
(`40_sequencer.md` rule R81), reset (`70_reset_and_hazards.md` rule R180) and the input ports (`10_state.md` rule R18). -/

namespace Sys2Proof.Machine

/-! ### The bit buffer -/

/-- The bit at place `k` of a byte in time order: place 0 is bit 7 (`20_memory.md` rule R42). -/
def byteBit (b : Byte) (k : Nat) : Bool := b.getLsbD (7 - k)

/-- Rule R41: how many bytes hold the positions below `n`. -/
def byteCount (n : Nat) : Nat := (n + 7) / 8

/-- The places of byte `a` whose positions lie below `n`, as a mask (place 0 is bit 7). -/
def placesBelow (n a : Nat) : Byte := 0xFF#8 <<< (8 - min 8 (n - 8 * a))

/-- The canonical form of the buffer: addresses strictly rising. An unlisted byte has no value, so no listed byte can
equal what an unlisted one reads as. -/
abbrev Memory.wf (m : Memory) : Prop := m.Pairwise fun c c' => c.1 < c'.1

/-- The byte at address `a`, when it holds a value. What an unlisted address reads as: no value (U4: "Never a value,
never zero"; log 7). -/
def Memory.byte? : Memory → Nat → Option Byte
  | [], _ => none
  | c :: m, a => if c.1 = a then some c.2 else Memory.byte? m a

/-- Rule R42: the bit at position `i`, bit `7 - (i mod 8)` of byte `i / 8`. -/
def Memory.bit? (m : Memory) (i : Nat) : Option Bool :=
  (Memory.byte? m (i / 8)).map fun b => byteBit b (i % 8)

/-- `MemRead(a, n)` of `00_scope.md` section 5.2 as a bit string: positions `a .. a+n-1`, the first one first; no value
when some position holds none. The bound `a + n <= nbits` is the caller's (rule R45). -/
def Memory.readBits (m : Memory) : Nat → Nat → Option (List Bool)
  | _, 0 => some []
  | a, n + 1 =>
    match Memory.bit? m a, Memory.readBits m (a + 1) n with
    | some b, some bs => some (b :: bs)
    | _, _ => none

/-- `10_state.md` rule R25 (b): every position below `n` holds a value. -/
def Memory.written (m : Memory) (n : Nat) : Bool :=
  (List.range n).all fun i => (Memory.bit? m i).isSome

/-- `10_state.md` rule R20: byte `a` takes the value `b`. -/
def Memory.setByte : Memory → Nat → Byte → Memory
  | [], a, b => [(a, b)]
  | c :: m, a, b =>
    if a < c.1 then (a, b) :: c :: m
    else if a = c.1 then (a, b) :: m
    else c :: Memory.setByte m a b

/-- `40_sequencer.md` rule R82: `MemWrite(i, 1, ~MemRead(i, 1))` for every position `i < n`; the pad bits stay
(`20_memory.md` rule R47). -/
def Memory.invertBelow (m : Memory) (n : Nat) : Memory :=
  m.map fun c => (c.1, c.2 ^^^ placesBelow n c.1)

/-- U9: the bytes that hold a position below `n` have no value any more (log 8). -/
def Memory.forgetBelow (m : Memory) (n : Nat) : Memory :=
  m.filter fun c => decide (n ≤ 8 * c.1)

/-! ### The input ports -/

/-- Input ports on which the host asks for nothing (log 3). -/
def Pins.quiet : Pins := ⟨false, false, 0, false, 0, 0#8⟩

/-- The input ports at the edge that ends the current operation (log 3). -/
def State.pins (s : State) : Pins := s.inputs.headD Pins.quiet

/-- The edge has passed: the next values stand on the ports, and a new free value is due (log 3, 11). -/
def State.endEdge (s : State) : State :=
  { s with inputs := s.inputs.tail, freeIndex := s.freeIndex + 1 }

/-! ### Control -/

/-- `phase <- X` of `00_scope.md` section 5.2. -/
def State.goto (s : State) (i : Instr) : State := { s with phase := encode i }

/-- The cause labels of SanityFail: "it is a label for the reader, not state" (`00_scope.md` section 5.2). -/
inductive Cause where
  | shortRaw
  | violation
  | sync
  deriving DecidableEq, Repr

/-- The rejections of `60_exceptions.md` rule R160. -/
inductive Rejection where
  | sanityFail (cause : Cause)
  | integrityFail (crc : BitVec 16)
  deriving DecidableEq, Repr

/-- The code rule R160 records for a rejection. -/
def reasonOf : Rejection → Reason
  | .sanityFail _ => .sanity
  | .integrityFail _ => .integrity

/-- TAKING an exception, `60_exceptions.md` rule R164: `last_reason <- code; phase <- ADVANCE`; nothing is saved. -/
def State.raise (s : State) (r : Rejection) : State :=
  { s with lastReason := reasonOf r, phase := encode .advance }

/-- RETURNING from one, rule R165: `cursor <- cand + 2; phase <- SCAN`; nothing is restored, because nothing was
saved. -/
def State.resumeScan (s : State) : State :=
  { s with cursor := s.cand + Config.adv, phase := encode .scan }

/-- The register writes of START, `40_sequencer.md` rule R81. -/
def State.beginEvent (s : State) (n : Nat) : State :=
  { s with nbits := n, cursor := 0, eventCount := 0, lastReason := .none, phase := encode .invert }

/-- Rule R25 (b): no position below `n` lies in a byte that still waits to be written since the last reset (log 18). -/
def State.reloaded (s : State) (n : Nat) : Bool := s.stale.all fun a => decide (n ≤ 8 * a)

/-- START (rule R81) with `nbits_in`; a START that is not well formed is refused (`10_state.md` rule R25, U3, U4; log 6). -/
def startEvent (s : State) : Host.Outcome State Fault Refusal :=
  if s.pins.nbitsIn ≤ s.nbitsMax then
    if Memory.written s.buf s.pins.nbitsIn && s.reloaded s.pins.nbitsIn then .next (s.beginEvent s.pins.nbitsIn)
    else .refused .startUnwritten
  else .refused .startTooLong

/-- What IDLE and DONE do (rules R80, R84): START when `start = 1`, else no state changes. -/
def awaitStart (s : State) : Host.Outcome State Fault Refusal :=
  if s.pins.start then startEvent s else .next s

/-- `emit(r)` (`47_output_emitter.md` rule R150): the sink receives the record `r`. -/
def State.emitRecord (s : State) (r : Reading) : State := { s with emitted := s.emitted ++ [r] }

/-! ### Reset and the host's buffer port -/

/-- `BUF` at a reset edge: it "is not changed by reset" (`70_reset_and_hazards.md` rule R180), but a reset that falls
during INVERT leaves the bits below `nbits` unspecified (U9; log 8). -/
def State.bufAfterReset (s : State) : Memory :=
  if s.phase = encode .invert then Memory.forgetBelow s.buf s.nbits else s.buf

/-- Reset, `70_reset_and_hazards.md` rule R180: every register takes its reset value; no byte of
`BUF` has been written since (`10_state.md` rule R25; log 18); the sink's list stays. DESIGN CHOICE (log 19): a reset in
EMIT does not add the record of the EMIT that it cuts off. -/
def State.applyReset (s : State) : State :=
  { State.reset with
    buf := s.bufAfterReset
    stale := s.bufAfterReset.map (·.1)
    emitted := s.emitted
    inputs := s.inputs
    nbitsMax := s.nbitsMax
    freeIndex := s.freeIndex }

/-- Rule R17: `busy = (phase != IDLE) and (phase != DONE)`. -/
def State.busy (s : State) : Bool := s.phase != encode .idle && s.phase != encode .done

/-- The host buffer port, `10_state.md` rule R20: a write is honoured while not busy, unless `start` is honoured at the
same edge (U15). A byte outside the storage does not exist (log 10). -/
def hostPort (s : State) : Host.Outcome State Fault Refusal :=
  if s.pins.hbWe && !s.busy && !s.pins.start then
    if s.pins.hbAddr < byteCount s.nbitsMax then
      .next { s with
        buf := Memory.setByte s.buf s.pins.hbAddr s.pins.hbWdata
        stale := s.stale.filter fun a => decide (a ≠ s.pins.hbAddr) }
    else .fault (.hostByteMissing s.pins.hbAddr)
  else .next s

/-! ### The frame of a step -/

/-- Go on from a next state; a fault or a refusal ends the step. -/
def andThen (o : Host.Outcome State Fault Refusal) (f : State → Host.Outcome State Fault Refusal) :
    Host.Outcome State Fault Refusal :=
  match o with
  | .next s => f s
  | .fault r => .fault r
  | .refused r => .refused r

/-- The operation `phase` selects (`10_state.md` rule R15): the block's only "fetch" (`20_memory.md` rule R53). -/
def fetch (s : State) : Except DecodeError Instr := decode s.phase

/-- `phase` selects the operation of the table word `w`; the ports ask for no reset and no host write at this edge
(log 12). -/
def State.select (s : State) (nbits w : Nat) : State :=
  { s with
    phase := phaseOfWord nbits w
    inputs :=
      match s.inputs with
      | [] => []
      | p :: ps => { p with rst := false, hbWe := false } :: ps }

end Sys2Proof.Machine
end

