-- ==== Sys2Proof/Machine/Operands.lean ====
section
/-! DEFINITION. What the operations read: the valid bits of the buffer, the bits and bytes of the window
(`20_memory.md` rules R42, R43, `30_encoding.md` rules R62, R71). -/

namespace Sys2Proof.Machine

/-- The valid bits `buf[0 .. nbits-1]` (`20_memory.md` rule R40), when all of them hold a value. -/
def State.buffer? (s : State) : Option (List Bool) := Memory.readBits s.buf 0 s.nbits

/-- `w[i]`, the `i`-th decoded bit (`10_state.md` rule R14). -/
def windowBit (w : Window) (i : Nat) : Bool := w.getMsbD i

/-- The bits of a byte in time order (`20_memory.md` rule R42). -/
def byteBits (b : Byte) : List Bool := (List.range 8).map (byteBit b)

/-- The bits of a byte string, each byte MSB-first. -/
def bitsOfBytes (bs : List Byte) : List Bool := bs.flatMap byteBits

/-- A bit string as a number, the first bit the most significant. -/
def natOfBits (l : List Bool) : Nat := l.foldl (fun n b => 2 * n + b.toNat) 0

/-- The window whose first positions are `l` and whose other positions are 0 (`10_state.md` rule R14, decision D28). -/
def windowOf (l : List Bool) : Window := BitVec.ofNat 72 (natOfBits l <<< (Config.winBits - l.length))

/-- `B[j] = bytes_msb(w, j)`: `w[8j]` is bit 7 (`10_state.md` rule R14). -/
def windowByte (w : Window) (j : Nat) : Byte := w.extractLsb' (8 * (8 - j)) 8

/-- The sync word `{B[0], B[1]}`, big-endian (`20_memory.md` rule R43). -/
def syncField (w : Window) : BitVec 16 := windowByte w 0 ++ windowByte w 1

/-- The bytes the CRC covers, `B[2] .. B[8]` in that order (`44_integrity_checker.md` rule R116). -/
def crcSpan (w : Window) : List Byte :=
  (List.range Config.crcCount).map fun k => windowByte w (Config.crcFirst + k)

/-- The scrambled payload `B[2] .. B[6]` (`30_encoding.md` rule R62). -/
def scrambledPayload (w : Window) : Payload :=
  ⟨windowByte w 2, windowByte w 3, windowByte w 4, windowByte w 5, windowByte w 6⟩

/-- The CRC field `{B[7], B[8]}`, big-endian (`20_memory.md` rule R43). -/
def crcField (w : Window) : BitVec 16 := windowByte w 7 ++ windowByte w 8

/-- The bytes of a payload in order. -/
def Payload.bytes (p : Payload) : List Byte := [p.d0, p.d1, p.d2, p.d3, p.d4]

end Sys2Proof.Machine
end

