-- ==== Sys2Proof/Machine/Flags.lean ====
section
/-! DEFINITION. The status flags (`10_state.md` rules R17, R19) and the fields of the flags nibble
(`30_encoding.md` rule R64, `46_field_extractor.md` rule R138). -/

namespace Sys2Proof.Machine

/-- Rule R17: `done = (phase == DONE)`, also the interrupt request (`60_exceptions.md` rule R168). -/
def State.isDone (s : State) : Bool := s.phase == encode .done

/-- Rule R17: `rd_valid = (phase == EMIT)`. -/
def State.rdValid (s : State) : Bool := s.phase == encode .emit

/-- Rule R19: the code of `last_reason` on its port. -/
def Reason.code : Reason → BitVec 2
  | .none => 0#2
  | .sanity => 1#2
  | .integrity => 2#2

/-- Rule R138: battery low iff `flags[1]` is clear. -/
def batteryLowOf (flags : BitVec 4) : Bool := !flags.getLsbD 1

/-- Rule R138: pressure-loss alarm iff `flags[3]` is clear. -/
def pressureLossAlarmOf (flags : BitVec 4) : Bool := !flags.getLsbD 3

end Sys2Proof.Machine
end

