-- ==== Sys2Proof/Machine/Crc.lean ====
section
/-! DEFINITION. The CRC-16/BUYPASS integrity checker, operation CRCCHK (`44_integrity_checker.md`). -/

namespace Sys2Proof.Machine

/-- One shift of the CRC register (rule R115): the bit shifted out at the top is dropped. -/
def crcShift (r : BitVec 16) : BitVec 16 := if r.msb then r <<< 1 ^^^ Config.crcPoly else r <<< 1

/-- One byte of the CRC (rule R115): the byte enters at the top, then eight shifts. -/
def crcByte (r : BitVec 16) (b : Byte) : BitVec 16 :=
  Nat.repeat crcShift 8 (r ^^^ b.zeroExtend 16 <<< 8)

/-- `crc16(M)`, rule R115. -/
def crc16 (bs : List Byte) : BitVec 16 := bs.foldl crcByte Config.crcInit

/-- CRCCHK, rule R116: on the bytes as transmitted, before descrambling. -/
def execCrcchk (s : State) : Host.Outcome State Fault Refusal :=
  let r := crc16 (crcSpan s.win)
  let s' := { s with crc := r }
  if r = 0x0000#16 then .next (s'.goto .descr) else .next (s'.raise (.integrityFail r))

end Sys2Proof.Machine
end

