-- ==== Sys2Proof/Machine/Descrambler.lean ====
section
/-! DEFINITION. The XOR descrambler, operation DESCR (`45_descrambler.md`). -/

namespace Sys2Proof.Machine

/-- Pass 1 of rule R125, index ascending, in place. -/
def descramblePass1 (d : Payload) : Payload :=
  let d := { d with d1 := d.d1 ^^^ d.d0 }
  let d := { d with d2 := d.d2 ^^^ d.d0 }
  let d := { d with d3 := d.d3 ^^^ d.d0 }
  { d with d4 := d.d4 ^^^ d.d0 }

/-- Pass 2 of rule R125, index descending, in place, with `d[4]` as pass 1 left it. -/
def descramblePass2 (d : Payload) : Payload :=
  let d := { d with d3 := d.d3 ^^^ d.d4 }
  let d := { d with d2 := d.d2 ^^^ d.d4 }
  let d := { d with d1 := d.d1 ^^^ d.d4 }
  { d with d0 := d.d0 ^^^ d.d4 }

/-- `descramble(t)`, the cascade of rule R125. -/
def descramble (t : Payload) : Payload := descramblePass2 (descramblePass1 t)

/-- DESCR, rule R126. -/
def execDescr (s : State) : Host.Outcome State Fault Refusal :=
  .next ({ s with d := descramble (scrambledPayload s.win) }.goto .extract)

end Sys2Proof.Machine
end

