-- ==== Sys2Proof/Machine/Emitter.lean ====
section
/-! DEFINITION. The output emitter, operation EMIT (`47_output_emitter.md`). -/

namespace Sys2Proof.Machine

/-- EMIT, rule R151. -/
def execEmit (s : State) : Host.Outcome State Fault Refusal :=
  .next ({ s.emitRecord s.rd with eventCount := s.eventCount + 1 }.goto .advance)

end Sys2Proof.Machine
end

