-- ==== Sys2Proof/Machine/Extractor.lean ====
section
/-! DEFINITION. The field extractor, operation EXTRACT (`46_field_extractor.md`). -/

namespace Sys2Proof.Machine

/-- `extract(d)`, rule R135. -/
def extractFields (d : Payload) : Reading :=
  let flags := d.d0.extractLsb' 0 4
  { id := d.d1 ++ d.d4
    flags := flags
    batteryLow := batteryLowOf flags
    pressureQ6 := d.d3
    pressureLossAlarm := pressureLossAlarmOf flags
    tempC := d.d2.zeroExtend 9 - Config.tempOffset }

/-- EXTRACT, rule R136. -/
def execExtract (s : State) : Host.Outcome State Fault Refusal :=
  .next ({ s with rd := extractFields s.d }.goto .emit)

/-- The pressure in bar, the rational number of rule R140. The block itself does not divide. -/
def Reading.pressureBar (r : Reading) : Rat := (r.pressureQ6.toNat : Rat) / (Config.pressDiv : Rat)

/-- The temperature in °C, the signed number of rule R139. -/
def Reading.temperature (r : Reading) : Int := r.tempC.toInt

/-- The character code of a nibble, lowercase hexadecimal (rule R137). -/
def nibbleAscii (n : BitVec 4) : Byte :=
  if n.toNat < 10 then 0x30#8 + n.zeroExtend 8 else 0x61#8 + (n.zeroExtend 8 - 10#8)

/-- `rd_id_ascii` (rule R137): the character of `id[15:12]` in the top byte. -/
def idAscii (id : BitVec 16) : BitVec 32 :=
  nibbleAscii (id.extractLsb' 12 4) ++ nibbleAscii (id.extractLsb' 8 4) ++
    nibbleAscii (id.extractLsb' 4 4) ++ nibbleAscii (id.extractLsb' 0 4)

end Sys2Proof.Machine
end

