-- ==== Sys2Proof/Machine/Manchester.lean ====
section
/-! DEFINITION. The Manchester decoder, operation MDEC (`42_manchester_decoder.md`). -/

namespace Sys2Proof.Machine

/-- The logical bit of a transition pair `(a, b)` (`30_encoding.md` rule R67). -/
def pairBit (a b : Bool) : Bool := if Config.manchSecond then b else a

/-- The loop of rule R100: at most `n` pairs, up to the first pair that is not wholly inside the buffer or has two
equal bits. -/
def decodePairs : Nat → List Bool → List Bool
  | 0, _ => []
  | n + 1, a :: b :: rest => if a = b then [] else pairBit a b :: decodePairs n rest
  | _ + 1, _ => []

/-- The logical bits decoded from the window start `s` on. -/
def decodedBits (buf : List Bool) (s : Nat) : List Bool := decodePairs Config.winBits (buf.drop s)

/-- `manchester(buf, nbits, s)`, rule R100: how many positions were decoded, and the window. -/
def manchester (buf : List Bool) (s : Nat) : Nat × Window :=
  ((decodedBits buf s).length, windowOf (decodedBits buf s))

/-- Why a decode that stopped after `len` pairs stopped: pair `len` is not wholly inside the buffer, or it has no
transition (rules R100, R160). -/
def stopCause (nbits s len : Nat) : Cause := if nbits ≤ s + 2 * len + 1 then .shortRaw else .violation

/-- MDEC, rule R101. -/
def execMdec (s : State) : Host.Outcome State Fault Refusal :=
  match s.buffer? with
  | none => .fault .unwrittenBit
  | some buf =>
    let start := s.cand + Config.winOffset
    let decoded := manchester buf start
    let s' := { s with win := decoded.2, winLen := decoded.1 }
    if decoded.1 < Config.winBits then .next (s'.raise (.sanityFail (stopCause s.nbits start decoded.1)))
    else .next (s'.goto .syncchk)

end Sys2Proof.Machine
end

