-- ==== Sys2Proof/Machine/Scanner.lean ====
section
/-! DEFINITION. The preamble scanner, operation SCAN (`41_preamble_scanner.md`). -/

namespace Sys2Proof.Machine

/-- `PATBIT[0..23]`, the pattern MSB-first (rule R90). -/
def patBitString : List Bool := (List.range Config.patBits).map Config.pat.getMsbD

/-- Rule R90: the pattern matches at position `p`, wholly inside the valid bits. -/
def matchesAt (buf : List Bool) (p : Nat) : Bool := patBitString.isPrefixOf (buf.drop p)

/-- The lowest match in what is left of the buffer from position `p` on. -/
def findFrom : List Bool → Nat → Option Nat
  | [], _ => none
  | b :: bs, p => if patBitString.isPrefixOf (b :: bs) then some p else findFrom bs (p + 1)

/-- `find(buf, nbits, from)`, rule R90; `buf` holds exactly the valid bits, and `none` is `NotFound`. -/
def find (buf : List Bool) (start : Nat) : Option Nat := findFrom (buf.drop start) start

/-- SCAN, rule R91. -/
def execScan (s : State) : Host.Outcome State Fault Refusal :=
  match s.buffer? with
  | none => .fault .unwrittenBit
  | some buf =>
    match find buf s.cursor with
    | none => .next (s.goto .done)
    | some p =>
      if p + Config.minRemain ≤ s.nbits then .next ({ s with cand := p }.goto .mdec)
      else .next (s.goto .done)

end Sys2Proof.Machine
end

