-- ==== Sys2Proof/Machine/Sequencer.lean ====
section
/-! DEFINITION. The operations IDLE, INVERT, ADVANCE and DONE (`40_sequencer.md`). -/

namespace Sys2Proof.Machine

/-- IDLE, rule R80. -/
def execIdle (s : State) : Host.Outcome State Fault Refusal := awaitStart s

/-- INVERT, rule R82. It reads every position below `nbits` (U4; log 7). -/
def execInvert (s : State) : Host.Outcome State Fault Refusal :=
  if Memory.written s.buf s.nbits then
    .next ({ s with buf := Memory.invertBelow s.buf s.nbits }.goto .scan)
  else .fault .unwrittenBit

/-- ADVANCE, rule R83. -/
def execAdvance (s : State) : Host.Outcome State Fault Refusal := .next s.resumeScan

/-- DONE, rule R84. -/
def execDone (s : State) : Host.Outcome State Fault Refusal := awaitStart s

end Sys2Proof.Machine
end

