-- ==== Sys2Proof/Machine/Sync.lean ====
section
/-! DEFINITION. The sync validator, operation SYNCCHK (`43_sync_validator.md`). -/

namespace Sys2Proof.Machine

/-- `sync_ok(w)`, rule R110. -/
def syncOk (w : Window) : Bool := syncField w == Config.sync

/-- SYNCCHK, rule R111. -/
def execSyncchk (s : State) : Host.Outcome State Fault Refusal :=
  if syncOk s.win then .next (s.goto .crcchk) else .next (s.raise (.sanityFail .sync))

end Sys2Proof.Machine
end

