-- ==== Sys2Proof/Machine/Dispatch.lean ====
section
/-! DEFINITION. The dispatch: one arm per operation of `30_encoding.md` rule R66. -/

namespace Sys2Proof.Machine

/-- The meaning of each operation. -/
def exec (i : Instr) (s : State) : Host.Outcome State Fault Refusal :=
  match i with
  | .idle => Sys2Proof.Machine.execIdle s
  | .invert => Sys2Proof.Machine.execInvert s
  | .scan => Sys2Proof.Machine.execScan s
  | .mdec => Sys2Proof.Machine.execMdec s
  | .syncchk => Sys2Proof.Machine.execSyncchk s
  | .crcchk => Sys2Proof.Machine.execCrcchk s
  | .descr => Sys2Proof.Machine.execDescr s
  | .extract => Sys2Proof.Machine.execExtract s
  | .emit => Sys2Proof.Machine.execEmit s
  | .advance => Sys2Proof.Machine.execAdvance s
  | .done => Sys2Proof.Machine.execDone s

end Sys2Proof.Machine
end

