-- ==== Sys2Proof/Machine/Step.lean ====
section
/-! DEFINITION. One step of the block (decision D1 of the spec: one operation). -/

namespace Sys2Proof.Machine

/-- One step, with the input ports as they stand at its edge. Reset overrides everything (`60_exceptions.md` rule
R166, `70_reset_and_hazards.md` rule R180), a running EMIT too (DESIGN CHOICE, log 19); otherwise the host port acts (`10_state.md` rule R20) and the operation
`phase` selects runs (rule R15). A `phase` that selects none is stuck (U6; log 5). -/
def step (s : State) : Host.Outcome State Fault Refusal :=
  if s.pins.rst then .next s.applyReset.endEdge
  else
    match fetch s with
    | .error _ => .fault (.noOperation s.phase)
    | .ok i => andThen (hostPort s) fun s' => andThen (exec i s') fun t => .next t.endEdge

/-- `s` with `phase` selecting the operation of the table word `w`: there is no instruction memory
(`20_memory.md` rule R53), the selector is all the step fetches (log 12). -/
def State.withFetchWord (s : State) (nbits w : Nat) : State := s.select nbits w

end Sys2Proof.Machine
end

