-- ==== Sys2Proof/Machine/Event.lean ====
section
/-! DEFINITION. The function of the whole block on one reception event (`00_scope.md` rule R5), and the attempts of
`41_preamble_scanner.md` rule R94. -/

namespace Sys2Proof.Machine

/-- What one event adds: the readings in order, and the reason of its last rejection. -/
structure EventResult where
  readings : List Reading
  reason : Reason
  deriving DecidableEq, Repr

/-- Before the first attempt (rules R5, R81). -/
def EventResult.start : EventResult := ⟨[], .none⟩

/-- The outcome of the attempt at candidate `p` of the inverted buffer: a rejection or a reading, the tests in the order
length, sync, CRC (`60_exceptions.md` rule R166). -/
def attemptAt (buf : List Bool) (p : Nat) : Except Rejection Reading :=
  let start := p + Config.winOffset
  let decoded := manchester buf start
  if decoded.1 < Config.winBits then .error (.sanityFail (stopCause buf.length start decoded.1))
  else if syncOk decoded.2 = false then .error (.sanityFail .sync)
  else if crc16 (crcSpan decoded.2) ≠ 0#16 then .error (.integrityFail (crc16 (crcSpan decoded.2)))
  else .ok (extractFields (descramble (scrambledPayload decoded.2)))

/-- What one attempt adds to the event's result (rule R5). -/
def EventResult.add (r : EventResult) : Except Rejection Reading → EventResult
  | .error e => { r with reason := reasonOf e }
  | .ok x => { r with readings := r.readings ++ [x] }

/-- The loop of rule R5 on the inverted buffer, for at most `fuel` attempts. -/
def processLoop (buf : List Bool) : Nat → Nat → EventResult → EventResult
  | 0, _, r => r
  | fuel + 1, cursor, r =>
    match find buf cursor with
    | none => r
    | some p =>
      if p + Config.minRemain ≤ buf.length then
        processLoop buf fuel (p + Config.adv) (r.add (attemptAt buf p))
      else r

/-- `process`, rule R5, on the bits the host loaded. No event has more attempts than bits
(`70_reset_and_hazards.md` rule R186). -/
def process (loaded : List Bool) : EventResult :=
  processLoop (loaded.map not) loaded.length 0 EventResult.start

/-- The candidates of rule R94, in increasing order: every match that leaves 80 bits. -/
def candidates (buf : List Bool) : List Nat :=
  (List.range buf.length).filter fun p => matchesAt buf p && decide (p + Config.minRemain ≤ buf.length)

/-- The most attempts an event of `n` bits can make (rule R186). -/
def maxAttempts (n : Nat) : Nat := if n < Config.minRemain then 0 else (n - Config.minRemain) / 2 + 1

/-- The most operations an event of `n` bits can take, START included (rule R186). -/
def maxOperations (n : Nat) : Nat := 3 + 8 * maxAttempts n

end Sys2Proof.Machine
end

