-- ==== Sys2Proof/Machine/Stimulus.lean ====
section
/-! DEFINITION. Stimuli, the host's side: the Manchester encoder (`42_manchester_decoder.md` rule R102), the forward
scrambler (`45_descrambler.md` rule R128), a whole transmission, and the host's protocol for one reception event
(`70_reset_and_hazards.md` rule R181, `30_encoding.md` rule R70). -/

namespace Sys2Proof.Machine

/-- The pair that codes a logical bit, inverted-buffer view (rules R67, R102). -/
def encodePair (b : Bool) : List Bool := if Config.manchSecond then [!b, b] else [b, !b]

/-- The raw bits of a logical bit string. -/
def mencBits (l : List Bool) : List Bool := l.flatMap encodePair

/-- `menc(L)`, rule R102. -/
def menc (bs : List Byte) : List Bool := mencBits (bitsOfBytes bs)

/-- `scramble(r)`, rule R128. -/
def scramble (r : Payload) : Payload :=
  ⟨r.d4 ^^^ r.d0, r.d1 ^^^ r.d0, r.d2 ^^^ r.d0, r.d3 ^^^ r.d0, r.d0⟩

/-- The frame of a scrambled payload (format FRAME, `30_encoding.md` rule R62): sync, payload, CRC field, which is the
CRC of the five scrambled bytes (`44_integrity_checker.md` rule R117). -/
def frameOf (t : Payload) : List Byte :=
  let c := crc16 t.bytes
  [Config.sync.extractLsb' 8 8, Config.sync.extractLsb' 0 8] ++ t.bytes ++ [c.extractLsb' 8 8, c.extractLsb' 0 8]

/-- One whole transmission of a frame, inverted-buffer view (rule R102): the preamble byte `FF`, then the frame. -/
def transmission (frame : List Byte) : List Bool := menc (0xFF#8 :: frame)

/-- The byte whose bits in time order are the first eight of `l`, missing ones 0. -/
def byteOfBits (l : List Bool) : Byte :=
  BitVec.ofNat 8 (natOfBits ((l ++ List.replicate 8 false).take 8))

/-- A bit string as bytes, MSB-first, zero-filled: `n` of them. -/
def bytesOfBits : Nat → List Bool → List Byte
  | 0, _ => []
  | n + 1, l => byteOfBits l :: bytesOfBits n (l.drop 8)

/-- A reception event (rule R70's `EVENT` line): the bit count, and the bytes the host writes, original polarity. -/
structure Event where
  nbits : Nat
  bytes : List Byte
  deriving DecidableEq, Repr

/-- The bits of an event's buffer, below its bit count. -/
def Event.bits (e : Event) : List Bool := (bitsOfBytes e.bytes).take e.nbits

/-- The event whose inverted view is the bit string `inv`. -/
def eventOfInverted (inv : List Bool) : Event :=
  ⟨inv.length, bytesOfBits (byteCount inv.length) (inv.map not)⟩

/-- Input ports that write one byte (rule R20). -/
def Pins.write (a : Nat) (b : Byte) : Pins := { Pins.quiet with hbWe := true, hbAddr := a, hbWdata := b }

/-- Input ports that raise `start` (rule R181 (4)). -/
def Pins.startWith (n : Nat) : Pins := { Pins.quiet with start := true, nbitsIn := n }

/-- The byte writes of rule R181 (2), from byte `a` on. -/
def loadPins : Nat → List Byte → List Pins
  | _, [] => []
  | a, b :: bs => Pins.write a b :: loadPins (a + 1) bs

/-- The host's protocol of rule R181 for one event: load every byte, then raise `start` for one edge. -/
def Event.pins (e : Event) : List Pins := loadPins 0 e.bytes ++ [Pins.startWith e.nbits]

end Sys2Proof.Machine
end

