-- ==== Sys2Proof/Machine/Ports.lean ====
section
/-! DEFINITION. The output ports, functions of the state and the address port (`10_state.md` rules R17 to R20). -/

namespace Sys2Proof.Machine

/-- `hb_rdata` (rule R20): the byte at `hb_addr` while not busy. While busy (U5), for a byte that was not written since
reset (U8) and at the positions outside the storage it is a free value (log 11, 18). -/
def State.hbRdata (s : State) : Byte :=
  let free := Config.freeByte s.freeIndex
  let stored := placesBelow s.nbitsMax s.pins.hbAddr
  if s.busy || s.stale.contains s.pins.hbAddr then free
  else
    match Memory.byte? s.buf s.pins.hbAddr with
    | none => free
    | some b => if stored = 0xFF#8 then b else (b &&& stored) ||| (free &&& ~~~stored)

/-- The output ports of rule R18. -/
structure Outputs where
  hbRdata : Byte
  busy : Bool
  done : Bool
  eventCount : Nat
  lastReason : BitVec 2
  rdValid : Bool
  rdId : BitVec 16
  rdIdAscii : BitVec 32
  rdFlags : BitVec 4
  rdBatteryLow : Bool
  rdPressureQ6 : Byte
  rdPressureLossAlarm : Bool
  rdTempC : BitVec 9
  deriving DecidableEq, Repr

/-- What the host and the sink see (rules R17, R18). -/
def State.outputs (s : State) : Outputs :=
  { hbRdata := s.hbRdata
    busy := s.busy
    done := s.isDone
    eventCount := s.eventCount
    lastReason := s.lastReason.code
    rdValid := s.rdValid
    rdId := s.rd.id
    rdIdAscii := idAscii s.rd.id
    rdFlags := s.rd.flags
    rdBatteryLow := s.rd.batteryLow
    rdPressureQ6 := s.rd.pressureQ6
    rdPressureLossAlarm := s.rd.pressureLossAlarm
    rdTempC := s.rd.tempC }

end Sys2Proof.Machine
end

