-- ==== Sys2Proof/Safety.lean ====
section
/-! DEFINITION. What a run is, the invariant that rules out the states no run reaches, and when a step may stop. -/

namespace Sys2Proof.Machine

/-- `k` steps, stopping at the first fault or refusal. -/
def steps : Nat → State → Host.Outcome State Fault Refusal
  | 0, s => .next s
  | k + 1, s => andThen (step s) (steps k)

/-- `phase` holds one of the operations of the list. -/
abbrev State.phaseIn (s : State) (is : List Instr) : Prop := s.phase ∈ is.map encode

/-- The operations of one attempt (`00_scope.md` section 7), and the ADVANCE that ends it. -/
def attemptOps : List Instr := [.mdec, .syncchk, .crcchk, .descr, .extract, .emit, .advance]

/-- The operations that run only after the length test passed (`60_exceptions.md` rule R166). -/
def afterLength : List Instr := [.syncchk, .crcchk, .descr, .extract, .emit]

/-- The operations that run only after the sync test passed (rule R166). -/
def afterSync : List Instr := [.crcchk, .descr, .extract, .emit]

/-- The operations that run only after the CRC test passed (rule R166). -/
def afterCrc : List Instr := [.descr, .extract, .emit]

/-- Every valid bit of the buffer holds a value (`10_state.md` rule R25 (b)). -/
abbrev State.readable (s : State) : Prop := ∀ i < s.nbits, (Memory.bit? s.buf i).isSome = true

/-- The pattern `55 55 A9` lies at position `p`, wholly inside the valid bits (`41_preamble_scanner.md` rule R90). -/
abbrev State.patternAt (s : State) (p : Nat) : Prop :=
  p + 24 ≤ s.nbits ∧ ∀ k < 24, Memory.bit? s.buf (p + k) = some ((0x5555A9#24).getMsbD k)

/-- The pair at positions `q`, `q + 1` codes the logical bit `b`: `1 0` codes 0, `0 1` codes 1 (`30_encoding.md` rule
R67). -/
abbrev State.pairCodes (s : State) (q : Nat) (b : Bool) : Prop :=
  Memory.bit? s.buf q = some (!b) ∧ Memory.bit? s.buf (q + 1) = some b

/-- The same on a bit string. -/
abbrev bitsCode (buf : List Bool) (q : Nat) (b : Bool) : Prop := buf[q]? = some (!b) ∧ buf[q + 1]? = some b

/-- The buffer is in canonical form and lists only bytes of the `NBITS_MAX` bits of storage (`20_memory.md` rule R41),
and so are the bytes that wait to be written since the last reset (log 18). -/
abbrev State.storageOk (s : State) : Prop :=
  Memory.wf s.buf ∧ (∀ c ∈ s.buf, c.1 < byteCount s.nbitsMax) ∧
    s.stale.Pairwise (· < ·) ∧ ∀ a ∈ s.stale, (Memory.byte? s.buf a).isSome = true

/-- `phase` never holds 11 to 15 (`10_state.md` rule R15), and `win_len` is at most 72 (rule R10). -/
abbrev State.controlOk (s : State) : Prop := Phase.wf s.phase = true ∧ s.winLen ≤ Config.winBits

/-- The bit count fits the storage, and while busy every valid bit was written since reset (rule R25). -/
abbrev State.launchOk (s : State) : Prop :=
  s.nbits ≤ s.nbitsMax ∧ (s.busy = true → Memory.written s.buf s.nbits = true ∧ s.reloaded s.nbits = true)

/-- The bounds of rule R13 on `cursor` and `cand`, and on the candidate of an attempt (rules R16, R91). -/
abbrev State.positionsOk (s : State) : Prop :=
  (s.cursor = 0 ∨ s.cursor + 78 ≤ s.nbits) ∧ (s.cand = 0 ∨ s.cand + 80 ≤ s.nbitsMax) ∧
    (s.phaseIn attemptOps → s.cursor ≤ s.cand ∧ s.cand + 80 ≤ s.nbits ∧
      Memory.readBits s.buf s.cand Config.patBits = some patBitString)

/-- The transient registers hold what the operations before in the attempt computed (rule R12, rule R166). -/
abbrev State.attemptOk (s : State) : Prop :=
  (s.phaseIn afterLength → s.winLen = Config.winBits ∧
    s.buffer?.map (fun buf => manchester buf (s.cand + Config.winOffset)) = some (Config.winBits, s.win)) ∧
  (s.phaseIn afterSync → syncOk s.win = true) ∧
  (s.phaseIn afterCrc → s.crc = 0#16 ∧ crc16 (crcSpan s.win) = 0#16) ∧
  (s.phaseIn [.extract, .emit] → s.d = descramble (scrambledPayload s.win)) ∧
  (s.phaseIn [.emit] → s.rd = extractFields s.d)

/-- Every reading of the event stands for 2 positions of the cursor (`70_reset_and_hazards.md` rule R186), and an event
begins with cleared counters (`40_sequencer.md` rule R81). -/
abbrev State.countOk (s : State) : Prop :=
  (s.phaseIn [.advance] → 2 * s.eventCount ≤ s.cand + 2) ∧
  (¬ s.phaseIn [.advance] → 2 * s.eventCount ≤ s.cursor) ∧
  (s.phaseIn [.invert] → s.cursor = 0 ∧ s.eventCount = 0 ∧ s.lastReason = .none)

/-- The invariant of the block. -/
def State.Inv (s : State) : Prop :=
  s.storageOk ∧ s.controlOk ∧ s.launchOk ∧ s.positionsOk ∧ s.attemptOk ∧ s.countOk

/-- The ports at this edge ask for nothing the model stops on: a well-formed START (`10_state.md` rule R25), and a host
write inside the storage (log 6, 10). -/
def State.portsOk (s : State) : Prop :=
  (s.pins.start = true →
    s.pins.nbitsIn ≤ s.nbitsMax ∧ Memory.written s.buf s.pins.nbitsIn = true ∧ s.reloaded s.pins.nbitsIn = true) ∧
  (s.pins.hbWe = true → s.pins.hbAddr < byteCount s.nbitsMax)

/-- The transition graph of `phase` while `rst = 0`, `40_sequencer.md` rule R85: from where to where. -/
def phaseGraph : List (Instr × Instr) :=
  [(.idle, .idle), (.idle, .invert), (.invert, .scan), (.scan, .mdec), (.scan, .done), (.mdec, .syncchk),
   (.mdec, .advance), (.syncchk, .crcchk), (.syncchk, .advance), (.crcchk, .descr), (.crcchk, .advance),
   (.descr, .extract), (.extract, .emit), (.emit, .advance), (.advance, .scan), (.done, .done), (.done, .invert)]

end Sys2Proof.Machine
end

