-- ==== Sys2Proof/Certificates/Slice0/Obligations.lean ====
section
/-! DEFINITION. The statements about the block, for the provers. A docstring names the rule of spec/ it formalises;
where the rule carries a decision of the spec (D<n>) or a choice of the model (log <n>), it says so. -/

open Sys2Proof Sys2Proof.Machine

/-! ### Reset -/

/-- `10_state.md` R23 (the spec's decision D3): what reset leaves. -/
def Obligations.ResetStateIsIdleAndZero : Prop :=
  State.reset.phase = 0#4 ∧ State.reset.nbits = 0 ∧ State.reset.cursor = 0 ∧ State.reset.cand = 0 ∧
  State.reset.win = 0#72 ∧ State.reset.winLen = 0 ∧ State.reset.crc = 0#16 ∧
  State.reset.d = ⟨0#8, 0#8, 0#8, 0#8, 0#8⟩ ∧ State.reset.rd = ⟨0#16, 0#4, false, 0#8, false, 0#9⟩ ∧
  State.reset.eventCount = 0 ∧ State.reset.lastReason.code = 0#2 ∧ ∀ i, Memory.bit? State.reset.buf i = none

/-- `70_reset_and_hazards.md` R180 (D3): at an edge with `rst = 1`, whatever the phase and the other inputs, every
register takes its reset value; the buffer is not changed unless the reset falls during INVERT; the sink keeps its
records; every byte waits to be written again (log 18). That a host write at the same edge is ignored is the model's
reading (log 9), and that a reset in EMIT cuts the record of that EMIT off is its choice (log 19). -/
def Obligations.ResetEdgeClearsEveryRegister : Prop :=
  ∀ s : State, s.pins.rst = true →
    ∃ m, step s = .next { State.reset with
        buf := m, emitted := s.emitted, stale := m.map (·.1), inputs := s.inputs.tail, nbitsMax := s.nbitsMax
        freeIndex := s.freeIndex + 1 } ∧
      (s.phase ≠ encode .invert → m = s.buf)

/-- `93_implementation_defined.md` U9: after a reset during INVERT the bits below `nbits` are any value, so they have no
value in the model; that the pad bits of the last of those bytes are given up with them is the model's choice (log 8). -/
def Obligations.ResetDuringInvertLeavesBitsUnspecified : Prop :=
  ∀ s : State, s.pins.rst = true → s.phase = encode .invert →
    ∃ t, step s = .next t ∧ t.phase = encode .idle ∧
      (∀ i < s.nbits, Memory.bit? t.buf i = none) ∧
      ∀ i, s.nbits ≤ 8 * (i / 8) → Memory.bit? t.buf i = Memory.bit? s.buf i

/-- `10_state.md` R23, R25 (b), U4 (D3; log 6, 18): after a reset a bit that the host has not written since makes the START
not well formed, so a START at the very next edge is refused, whatever the buffer held before. -/
def Obligations.ResetDemandsAReload : Prop :=
  ∀ s t : State, s.pins.rst = true → step s = .next t → t.pins.rst = false → t.pins.start = true →
    0 < t.pins.nbitsIn → t.pins.nbitsIn ≤ t.nbitsMax → step t = .refused .startUnwritten

/-! ### What each operation does -/

/-- `40_sequencer.md` R80, R81, R84 (D2, D10, D22): IDLE and DONE wait while `start = 0`, and perform a well-formed
START (`10_state.md` R25) when `start = 1`; nothing else changes. -/
def Obligations.IdleAndDoneWaitOrStart : Prop :=
  ∀ (s : State) (i : Instr), i = .idle ∨ i = .done →
    (s.pins.start = false → exec i s = .next s) ∧
    (s.pins.start = true → s.pins.nbitsIn ≤ s.nbitsMax →
      (∀ k < s.pins.nbitsIn, (Memory.bit? s.buf k).isSome = true ∧ k / 8 ∉ s.stale) →
      exec i s = .next { s with
        nbits := s.pins.nbitsIn, cursor := 0, eventCount := 0, lastReason := .none, phase := 1#4 })

/-- `10_state.md` R25 (D7), U3, U4: a START that is not well formed is refused, by the name of what is wrong (log 6). -/
def Obligations.MalformedStartIsRefused : Prop :=
  ∀ (s : State) (i : Instr), i = .idle ∨ i = .done → s.pins.start = true →
    (s.nbitsMax < s.pins.nbitsIn → exec i s = .refused .startTooLong) ∧
    (s.pins.nbitsIn ≤ s.nbitsMax → (∃ k < s.pins.nbitsIn, Memory.bit? s.buf k = none ∨ k / 8 ∈ s.stale) →
      exec i s = .refused .startUnwritten)

/-- `40_sequencer.md` R82 (D6, D23): INVERT complements the positions below `nbits` and no other bit; every register but
`phase` is unchanged. -/
def Obligations.InvertComplementsTheValidBits : Prop :=
  ∀ s : State, s.readable →
    ∃ m, exec .invert s = .next { s with buf := m, phase := 2#4 } ∧
      ∀ i, Memory.bit? m i = if i < s.nbits then (Memory.bit? s.buf i).map not else Memory.bit? s.buf i

/-- `41_preamble_scanner.md` R90, R91 (D8, D9): SCAN takes the lowest match at or after `cursor` when it leaves 80 bits,
and else ends the event; nothing else changes. -/
def Obligations.ScanTakesTheLowestCandidate : Prop :=
  ∀ s : State, s.readable →
    (∀ p, s.cursor ≤ p → s.patternAt p → (∀ q, s.cursor ≤ q → q < p → ¬ s.patternAt q) → p + 80 ≤ s.nbits →
      exec .scan s = .next { s with cand := p, phase := 3#4 }) ∧
    ((∀ p, s.cursor ≤ p → s.patternAt p → s.nbits < p + 80) → exec .scan s = .next { s with phase := 10#4 })

/-- `42_manchester_decoder.md` R100, R101 (D11, D12, D13): when the 72 pairs from `cand + 16` lie inside the buffer and
code the bits of `w`, MDEC sets the window to `w` and goes to SYNCCHK; nothing else changes. -/
def Obligations.MdecDecodesAFullWindow : Prop :=
  ∀ (s : State) (w : Window), s.readable → s.cand + 160 ≤ s.nbits →
    (∀ i < 72, s.pairCodes (s.cand + 16 + 2 * i) (w.getMsbD i)) →
    exec .mdec s = .next { s with win := w, winLen := 72, phase := 4#4 }

/-- `42_manchester_decoder.md` R100, R101 (D11, D12, D13, D28): when exactly `n < 72` pairs decode, because pair `n` is
not wholly inside the buffer or has two equal bits, MDEC raises SanityFail; the window holds the `n` bits, then zeros. -/
def Obligations.MdecRejectsAShortWindow : Prop :=
  ∀ (s : State) (w : Window) (n : Nat), s.readable → n < 72 →
    (∀ i < n, s.cand + 16 + 2 * i + 1 < s.nbits ∧ s.pairCodes (s.cand + 16 + 2 * i) (w.getMsbD i)) →
    (∀ i < 72, n ≤ i → w.getMsbD i = false) →
    (s.nbits ≤ s.cand + 16 + 2 * n + 1 ∨
      Memory.bit? s.buf (s.cand + 16 + 2 * n) = Memory.bit? s.buf (s.cand + 16 + 2 * n + 1)) →
    exec .mdec s = .next { s with win := w, winLen := n, lastReason := .sanity, phase := 9#4 }

/-- `43_sync_validator.md` R110, R111: the sync test in its three forms, and what SYNCCHK does with it; on both paths
nothing but `phase` and, on rejection, `last_reason` changes. -/
def Obligations.SyncchkComparesTheSyncWord : Prop :=
  (∀ w : Window, (syncOk w = true ↔ windowByte w 0 = 0x19#8 ∧ windowByte w 1 = 0xCF#8) ∧
    (syncOk w = true ↔ windowByte w 0 ++ windowByte w 1 = 0x19CF#16) ∧
    (syncOk w = true ↔ (List.range 16).map (windowBit w) =
      [false, false, false, true, true, false, false, true, true, true, false, false, true, true, true, true])) ∧
  (∀ w w' : Window, (∀ i < 16, windowBit w i = windowBit w' i) → syncOk w = syncOk w') ∧
  ∀ s : State,
    (syncOk s.win = true → exec .syncchk s = .next { s with phase := 5#4 }) ∧
    (syncOk s.win = false → exec .syncchk s = .next { s with lastReason := .sanity, phase := 9#4 })

/-- `44_integrity_checker.md` R116: CRCCHK computes the CRC of window bytes 2 to 8, stores it, and goes to DESCR when it
is zero; else it raises IntegrityFail. Nothing else changes. The two corner cases (a) and (b) of the rule are included. -/
def Obligations.CrcchkTestsBytesTwoToEight : Prop :=
  (∀ (s : State) (r : BitVec 16),
    r = crc16 [windowByte s.win 2, windowByte s.win 3, windowByte s.win 4, windowByte s.win 5, windowByte s.win 6,
      windowByte s.win 7, windowByte s.win 8] →
    (r = 0#16 → exec .crcchk s = .next { s with crc := 0#16, phase := 6#4 }) ∧
    (r ≠ 0#16 → exec .crcchk s = .next { s with crc := r, lastReason := .integrity, phase := 9#4 })) ∧
  crc16 (List.replicate 7 0x00#8) = 0x0000#16 ∧ crc16 (List.replicate 7 0xFF#8) = 0x7001#16

/-- `45_descrambler.md` R126: DESCR puts the descrambled window bytes 2 to 6 into `d`; the window and everything else
stay. -/
def Obligations.DescrDescramblesTheWindow : Prop :=
  ∀ s : State, exec .descr s = .next { s with
    d := descramble ⟨windowByte s.win 2, windowByte s.win 3, windowByte s.win 4, windowByte s.win 5, windowByte s.win 6⟩
    phase := 7#4 }

/-- `46_field_extractor.md` R135: EXTRACT computes the six fields from `d` alone, as numbers; nothing else changes. -/
def Obligations.ExtractComputesTheSixFields : Prop :=
  ∀ s : State, exec .extract s = .next { s with
    rd :=
      { id := BitVec.ofNat 16 (s.d.d1.toNat * 256 + s.d.d4.toNat)
        flags := BitVec.ofNat 4 (s.d.d0.toNat % 16)
        batteryLow := decide (s.d.d0 &&& 0x02#8 = 0#8)
        pressureQ6 := s.d.d3
        pressureLossAlarm := decide (s.d.d0 &&& 0x08#8 = 0#8)
        tempC := BitVec.ofInt 9 ((s.d.d2.toNat : Int) - 55) }
    phase := 8#4 }

/-- `47_output_emitter.md` R150, R151 (D16, D17, D24): EMIT appends the record of the six `rd_*` registers and counts
it; nothing else changes. -/
def Obligations.EmitAppendsTheReading : Prop :=
  ∀ s : State, exec .emit s = .next { s with
    emitted := s.emitted ++ [⟨s.rd.id, s.rd.flags, s.rd.batteryLow, s.rd.pressureQ6, s.rd.pressureLossAlarm, s.rd.tempC⟩]
    eventCount := s.eventCount + 1
    phase := 9#4 }

/-- `40_sequencer.md` R83, `60_exceptions.md` R165 (D10): ADVANCE moves the cursor 2 bits past the candidate; nothing else
changes, whatever the attempt's outcome was. -/
def Obligations.AdvanceMovesTheCursorTwoPastTheCandidate : Prop :=
  ∀ s : State, exec .advance s = .next { s with cursor := s.cand + 2, phase := 2#4 }

/-- `93_implementation_defined.md` U4, `10_state.md` R23: INVERT, SCAN and MDEC fault when a valid bit holds no value
(log 7). -/
def Obligations.UnwrittenBitFaults : Prop :=
  ∀ (s : State) (i : Instr), i = .invert ∨ i = .scan ∨ i = .mdec → (∃ k < s.nbits, Memory.bit? s.buf k = none) →
    exec i s = .fault .unwrittenBit

/-! ### The step, the host port, the outputs -/

/-- `10_state.md` R15 (D1, D20): a step with no reset runs the operation `phase` selects; around it only the input ports
move on to the next edge and the free-value counter advances (log 3, 11). -/
def Obligations.StepRunsTheSelectedOperation : Prop :=
  ∀ (s : State) (i : Instr), s.pins.rst = false → decode s.phase = .ok i → i.wf = true →
    (s.pins.hbWe = false ∨ s.busy = true ∨ s.pins.start = true) →
    step s = andThen (exec i s) fun t => .next { t with inputs := t.inputs.tail, freeIndex := t.freeIndex + 1 }

/-- `10_state.md` R20 (D4, D21): while not busy and with no START, a host write puts the byte's bit 7 at position
`8 * hb_addr` and so on, and changes no other bit; the byte counts as written since reset (log 18); the registers stay. -/
def Obligations.HostWriteLandsWhileNotBusy : Prop :=
  ∀ s : State, s.pins.rst = false → s.phase = encode .idle ∨ s.phase = encode .done → Memory.wf s.buf →
    s.pins.start = false → s.pins.hbWe = true → s.pins.hbAddr < byteCount s.nbitsMax →
    ∃ m, step s = .next { s with
        buf := m, stale := s.stale.filter fun a => decide (a ≠ s.pins.hbAddr), inputs := s.inputs.tail
        freeIndex := s.freeIndex + 1 } ∧ Memory.wf m ∧
      (∀ k < 8, Memory.bit? m (8 * s.pins.hbAddr + k) = some (s.pins.hbWdata.getLsbD (7 - k))) ∧
      ∀ i, i / 8 ≠ s.pins.hbAddr → Memory.bit? m i = Memory.bit? s.buf i

/-- The model's choice (log 10): a host write to a byte that holds no position below `NBITS_MAX` faults. -/
def Obligations.HostWriteOutsideTheStorageFaults : Prop :=
  ∀ s : State, s.pins.rst = false → s.phase = encode .idle ∨ s.phase = encode .done →
    s.pins.start = false → s.pins.hbWe = true → byteCount s.nbitsMax ≤ s.pins.hbAddr →
    step s = .fault (.hostByteMissing s.pins.hbAddr)

/-- `70_reset_and_hazards.md` R182 (D21): while busy, host writes and `start` are ignored: whatever the ports ask for,
short of reset, the step is the same. -/
def Obligations.BusyBlockIgnoresTheHost : Prop :=
  ∀ (s : State) (p p' : Pins) (ps : List Pins), s.busy = true → p.rst = false → p'.rst = false →
    step { s with inputs := p :: ps } = step { s with inputs := p' :: ps }

/-- `30_encoding.md` R68, U6 (D20): a selector value 11 to 15 selects no operation; the machine is stuck (log 5). -/
def Obligations.ReservedSelectorIsStuck : Prop :=
  ∀ s : State, 11#4 ≤ s.phase → s.pins.rst = false → step s = .fault (.noOperation s.phase)

/-- `10_state.md` R17, R18, R19 (D2, D19): the output ports, as functions of the state; `rd_id_ascii` is the text form of
`rd_id` (`46_field_extractor.md` R137, what `idAscii` is says `IdTextIsFourLowercaseHexCharacters`). -/
def Obligations.OutputsFollowTheState : Prop :=
  ∀ s : State,
    (s.outputs.busy = true ↔ s.phase ≠ 0#4 ∧ s.phase ≠ 10#4) ∧ (s.outputs.done = true ↔ s.phase = 10#4) ∧
    (s.outputs.rdValid = true ↔ s.phase = 8#4) ∧ s.outputs.eventCount = s.eventCount ∧
    (s.outputs.lastReason = 0#2 ↔ s.lastReason = .none) ∧ (s.outputs.lastReason = 1#2 ↔ s.lastReason = .sanity) ∧
    (s.outputs.lastReason = 2#2 ↔ s.lastReason = .integrity) ∧
    s.outputs.rdId = s.rd.id ∧ s.outputs.rdIdAscii = idAscii s.rd.id ∧ s.outputs.rdFlags = s.rd.flags ∧ s.outputs.rdBatteryLow = s.rd.batteryLow ∧
    s.outputs.rdPressureQ6 = s.rd.pressureQ6 ∧ s.outputs.rdPressureLossAlarm = s.rd.pressureLossAlarm ∧
    s.outputs.rdTempC = s.rd.tempC

/-- `10_state.md` R20, `20_memory.md` R41 (D4): while not busy each bit of `hb_rdata` whose position exists, holds a value
and was written since reset shows that position, bit 7 the lowest, also in a last byte that the storage fills only in
part; so a byte whose eight positions do so is shown whole. -/
def Obligations.HostReadShowsTheByte : Prop :=
  ∀ s : State, s.busy = false → s.pins.hbAddr ∉ s.stale →
    (∀ (k : Nat) (v : Bool), k < 8 → 8 * s.pins.hbAddr + k < s.nbitsMax →
      Memory.bit? s.buf (8 * s.pins.hbAddr + k) = some v → s.outputs.hbRdata.getLsbD (7 - k) = v) ∧
    ∀ b : Byte, 8 * s.pins.hbAddr + 8 ≤ s.nbitsMax →
      (∀ k < 8, Memory.bit? s.buf (8 * s.pins.hbAddr + k) = some (b.getLsbD (7 - k))) → s.outputs.hbRdata = b

/-! ### The selector -/

/-- `30_encoding.md` R66 (D20): some rows of the operation map, read off its table. -/
def Obligations.SelectorValuesOfTheTable : Prop :=
  decodeTableWord 8 0 = some .idle ∧ decodeTableWord 8 2 = some .scan ∧ decodeTableWord 8 3 = some .mdec ∧
  decodeTableWord 8 5 = some .crcchk ∧ decodeTableWord 8 8 = some .emit ∧ decodeTableWord 8 10 = some .done ∧
  decodeTableWord 8 11 = none ∧ decodeTableWord 8 15 = none

/-- `30_encoding.md` R66, R68 (D20): each selector value selects at most one operation, each operation has one value,
and exactly the values 11 to 15 select none. -/
def Obligations.SelectorRoundTrip : Prop :=
  (∀ i : Instr, i.wf = true → decode (encode i) = .ok i) ∧
  (∀ (p : Phase) (i : Instr), decode p = .ok i → encode i = p) ∧
  ∀ p : Phase, decode p = .error (.reservedPhase p) ↔ 11#4 ≤ p

/-! ### Invariants of every step -/

/-- `State.reset` meets the invariant. -/
def Obligations.ResetMeetsTheInvariant : Prop := State.reset.Inv

/-- The invariant of the block is kept by every step, resets and host writes among them: the buffer's canonical form, a
legal `phase` (`10_state.md` R15), the bounds on positions (R13), the candidate's pattern (`41_preamble_scanner.md` R91),
the order of the tests (`60_exceptions.md` R166), the values of the transient registers (R12) and the count (R186). -/
def Obligations.EveryStepKeepsTheInvariant : Prop :=
  ∀ s t : State, s.Inv → step s = .next t → t.Inv

/-- `10_state.md` R13 (D7, D18): no position and no count ever exceeds `W_POS` bits, those the operations form on the way
among them: the last raw bit of a window, `cand + 159`, and the stop test's `p + 80` for the position `p` that the search
finds (`41_preamble_scanner.md` R91). `W_POS` is a width with `2^W_POS > NBITS_MAX + 160`, and the smallest
(`00_scope.md` R4). -/
def Obligations.PositionsNeverOverflow : Prop :=
  (∀ s : State, s.Inv →
    s.nbits < 2 ^ Config.wPos s.nbitsMax ∧ s.cursor < 2 ^ Config.wPos s.nbitsMax ∧
    s.cand + 159 < 2 ^ Config.wPos s.nbitsMax ∧ s.cursor + 80 < 2 ^ Config.wPos s.nbitsMax ∧
    s.eventCount + 1 < 2 ^ Config.wPos s.nbitsMax ∧
    ∀ (buf : List Bool) (start p : Nat), s.buffer? = some buf → find buf start = some p →
      p + 80 < 2 ^ Config.wPos s.nbitsMax) ∧
  ∀ n : Nat, n + 160 < 2 ^ Config.wPos n ∧ ∀ w : Nat, n + 160 < 2 ^ w → Config.wPos n ≤ w

/-- `60_exceptions.md` R160: from a state of the invariant a step always answers a next state, if the ports ask for
nothing the model stops on (log 6, 10); while busy, or under reset, whatever they ask for. -/
def Obligations.NoOperationCanStop : Prop :=
  ∀ s : State, s.Inv → s.pins.rst = true ∨ s.busy = true ∨ s.portsOk → ∃ t, step s = .next t

/-- `40_sequencer.md` R85: reset sends `phase` to IDLE; without reset `phase` moves only along the transition graph, and
along each edge under its condition. No other transition exists. -/
def Obligations.PhaseFollowsTheTransitionGraph : Prop :=
  ∀ s t : State, step s = .next t →
    (s.pins.rst = true → t.phase = encode .idle) ∧
    (s.pins.rst = false → ∃ i j, (i, j) ∈ phaseGraph ∧ s.phase = encode i ∧ t.phase = encode j ∧
      (i = .idle ∨ i = .done → (j = .invert ↔ s.pins.start = true)) ∧
      (i = .scan → (j = .mdec ↔ ∃ p, s.cursor ≤ p ∧ s.patternAt p ∧ p + 80 ≤ s.nbits)) ∧
      (i = .mdec → (j = .syncchk ↔ t.winLen = 72)) ∧ (i = .syncchk → (j = .crcchk ↔ syncOk s.win = true)) ∧
      (i = .crcchk → (j = .descr ↔ t.crc = 0#16)))

/-- `10_state.md` R11, `47_output_emitter.md` R150 (D17): the sink's list grows only at EMIT, by the record on the
`rd_*` registers, and nothing ever takes a record away. That a reset in EMIT adds no record is the model's choice
(log 19). -/
def Obligations.OnlyEmitReachesTheSink : Prop :=
  ∀ s t : State, step s = .next t →
    (t.emitted = s.emitted ∧ (s.pins.rst = true ∨ s.phase ≠ encode .emit)) ∨
    (s.pins.rst = false ∧ s.phase = encode .emit ∧ t.emitted = s.emitted ++ [s.rd] ∧ t.eventCount = s.eventCount + 1)

/-- `20_memory.md` R46, R47, R50 (D21, D23): without reset, while busy only INVERT changes the buffer; while not busy
only the host does, in the byte it addresses. -/
def Obligations.BufferIsChangedOnlyByItsOwner : Prop :=
  ∀ s t : State, s.pins.rst = false → Memory.wf s.buf → step s = .next t →
    (s.busy = true → s.phase ≠ encode .invert → t.buf = s.buf) ∧
    (s.busy = false → (s.pins.hbWe = false ∨ s.pins.start = true) → t.buf = s.buf) ∧
    (s.busy = false → ∀ a, a ≠ s.pins.hbAddr → Memory.byte? t.buf a = Memory.byte? s.buf a)

/-- `10_state.md` R16: the cursor is 0 after START and `cand + 2` after every attempt; inside an event it only grows (by
at least 2 at each ADVANCE); it does not wrap. -/
def Obligations.CursorOnlyGrowsInsideAnEvent : Prop :=
  ∀ s t : State, s.Inv → s.pins.rst = false → step s = .next t →
    (s.busy = false → s.pins.start = true → t.cursor = 0) ∧
    (s.phase = encode .advance → t.cursor = s.cand + 2 ∧ s.cursor + 2 ≤ t.cursor) ∧
    (s.busy = true → s.cursor ≤ t.cursor) ∧ t.cursor < 2 ^ Config.wPos t.nbitsMax

/-- `60_exceptions.md` R164, R165 (D19, D28): a rejection writes the reason and goes to ADVANCE; what the host and the
sink see of the attempt is nothing else. -/
def Obligations.RejectionIsPrecise : Prop :=
  ∀ s t : State, s.pins.rst = false → s.phaseIn [.mdec, .syncchk, .crcchk] → step s = .next t →
    t.phase = encode .advance →
    (t.lastReason = if s.phase = encode .crcchk then .integrity else .sanity) ∧
    t.emitted = s.emitted ∧ t.eventCount = s.eventCount ∧ t.buf = s.buf ∧ t.nbits = s.nbits ∧ t.rd = s.rd ∧
    t.d = s.d ∧ t.cursor = s.cursor ∧ t.cand = s.cand

/-- `60_exceptions.md` R166: IntegrityFail implies that the window was full and its sync matched; SanityFail at the sync
test implies that the window was full. -/
def Obligations.RejectionsKeepTheirPriority : Prop :=
  ∀ s t : State, s.Inv → s.pins.rst = false → step s = .next t → t.phase = encode .advance →
    (s.phase = encode .crcchk →
      t.lastReason = .integrity ∧ t.winLen = 72 ∧ syncOk t.win = true ∧ t.crc ≠ 0#16 ∧ t.crc = crc16 (crcSpan t.win)) ∧
    (s.phase = encode .syncchk → t.lastReason = .sanity ∧ t.winLen = 72 ∧ syncOk t.win = false) ∧
    (s.phase = encode .mdec → t.lastReason = .sanity ∧ t.winLen < 72)

/-- `10_state.md` R17, `60_exceptions.md` R167 (D19): no operation reads `last_reason`: two states that differ only in
it step to states that differ only in it. -/
def Obligations.LastReasonHasNoControlRole : Prop :=
  ∀ (s : State) (r : Reason),
    andThen (step { s with lastReason := r }) (fun t => .next { t with lastReason := .none }) =
      andThen (step s) (fun t => .next { t with lastReason := .none })

/-- `20_memory.md` R45, `30_encoding.md` U7 (D6): no operation reads a pad bit: SCAN and MDEC answer the same for two
buffers that agree below `nbits`. -/
def Obligations.PadBitsAreNeverRead : Prop :=
  ∀ (s : State) (m m' : Memory) (i : Instr), i = .scan ∨ i = .mdec →
    (∀ k < s.nbits, Memory.bit? m k = Memory.bit? m' k) →
    andThen (exec i { s with buf := m }) (fun t => .next { t with buf := [] }) =
      andThen (exec i { s with buf := m' }) (fun t => .next { t with buf := [] })

/-- `70_reset_and_hazards.md` R183 (D23): a second INVERT on the same bits restores every bit. -/
def Obligations.SecondInversionRestoresTheBuffer : Prop :=
  ∀ s : State, s.readable →
    ∃ t u, exec .invert s = .next t ∧ exec .invert t = .next u ∧ u.nbits = s.nbits ∧
      (∀ i < s.nbits, Memory.bit? t.buf i ≠ Memory.bit? s.buf i) ∧ ∀ i, Memory.bit? u.buf i = Memory.bit? s.buf i

/-! ### The functions of the operations -/

/-- `41_preamble_scanner.md` R93: the pattern overlaps itself only at a shift of 22 bits. -/
def Obligations.PatternOverlapsItselfOnlyAtTwentyTwo : Prop :=
  ∀ (buf : List Bool) (p k : Nat), matchesAt buf p = true → 1 ≤ k → k ≤ 23 → k ≠ 22 → matchesAt buf (p + k) = false

/-- `42_manchester_decoder.md` R102: decoding what the encoder makes of nine bytes behind the preamble byte gives the
nine bytes, and the pattern lies at the front. -/
def Obligations.DecoderInvertsTheEncoder : Prop :=
  ∀ frame : List Byte, frame.length = 9 →
    (transmission frame).length = 160 ∧ (manchester (transmission frame) 16).1 = 72 ∧
    ∀ j < 9, some (windowByte (manchester (transmission frame) 16).2 j) = frame[j]?

/-- `42_manchester_decoder.md` R101 (e) (D13): one raw bit flipped inside a full window makes its pair a violation, and
the decode stops there. -/
def Obligations.RawBitFlipStopsTheDecode : Prop :=
  ∀ (buf : List Bool) (s q : Nat), (manchester buf s).1 = 72 → s ≤ q → q < s + 144 →
    (manchester (buf.modify q not) s).1 = (q - s) / 2

/-- `44_integrity_checker.md` R115 (the polynomial reading, G1 of the spec): `crc16(M)` is `M(x) * x^16` reduced modulo
`x^16 + x^15 + x^2 + 1` over GF(2), the bits MSB-first. -/
def Obligations.CrcIsThePolynomialRemainder : Prop :=
  let poly : List Bool → Polynomial (ZMod 2) := fun l =>
    l.foldl (fun p b => p * Polynomial.X + (if b then 1 else 0)) 0
  ∀ bytes : List Byte, ∃ q : Polynomial (ZMod 2),
    poly (bitsOfBytes bytes) * Polynomial.X ^ 16 =
      q * (Polynomial.X ^ 16 + Polynomial.X ^ 15 + Polynomial.X ^ 2 + 1) +
        poly ((List.range 16).map (crc16 bytes).getMsbD)

/-- `44_integrity_checker.md` R117: the CRC over payload and field is zero exactly when the field is the CRC of the
payload, high byte first; so CRCCHK's test on a window is that its CRC field is the CRC of its scrambled payload. -/
def Obligations.CrcFieldMustBeTheCrcOfThePayload : Prop :=
  (∀ (t : Payload) (hi lo : Byte), crc16 (t.bytes ++ [hi, lo]) = 0#16 ↔ hi ++ lo = crc16 t.bytes) ∧
  ∀ w : Window, crc16 (crcSpan w) = 0#16 ↔ crcField w = crc16 (scrambledPayload w).bytes

/-- `44_integrity_checker.md` R118: one logical bit flipped among bytes 2 to 8 of an accepted window is always an
IntegrityFail. -/
def Obligations.SingleBitFlipIsAlwaysRejected : Prop :=
  ∀ (s : State) (k : Nat), crc16 (crcSpan s.win) = 0#16 → 16 ≤ k → k < 72 →
    ∃ r, r ≠ 0#16 ∧ exec .crcchk { s with win := s.win ^^^ 1#72 <<< (71 - k) } =
      .next { s with win := s.win ^^^ 1#72 <<< (71 - k), crc := r, lastReason := .integrity, phase := 9#4 }

/-- `45_descrambler.md` R127: the closed form of the cascade. -/
def Obligations.DescrambleHasTheClosedForm : Prop :=
  ∀ t : Payload, descramble t = ⟨t.d4, t.d1 ^^^ t.d4, t.d2 ^^^ t.d4, t.d3 ^^^ t.d4, t.d4 ^^^ t.d0⟩

/-- `45_descrambler.md` R128: the cascade has order 3, the scrambler inverts it on both sides and is it applied twice,
and applying it twice reproduces the input only when `t[0]` and `t[4]` are zero. -/
def Obligations.DescrambleHasOrderThree : Prop :=
  ∀ t : Payload, descramble (descramble (descramble t)) = t ∧ descramble (scramble t) = t ∧
    scramble (descramble t) = t ∧ scramble t = descramble (descramble t) ∧
    (descramble (descramble t) = t ↔ t.d0 = 0#8 ∧ t.d4 = 0#8)

/-- `46_field_extractor.md` R137 (D16, D26; the ASCII codes are the spec's G3): the id's text form is four characters,
zero-padded lowercase hexadecimal, the most significant nibble first. -/
def Obligations.IdTextIsFourLowercaseHexCharacters : Prop :=
  ∀ (id : BitVec 16) (k : Nat), k < 4 →
    some ((idAscii id).extractLsb' (8 * k) 8) =
      [0x30#8, 0x31#8, 0x32#8, 0x33#8, 0x34#8, 0x35#8, 0x36#8, 0x37#8, 0x38#8, 0x39#8, 0x61#8, 0x62#8, 0x63#8, 0x64#8,
        0x65#8, 0x66#8][id.toNat / 16 ^ k % 16]?

/-- `46_field_extractor.md` R138: after EXTRACT `rd_flags` is the nibble unchanged, and the two booleans have the stated
polarities. -/
def Obligations.FlagPolarities : Prop :=
  ∀ s : State, ∃ t, exec .extract s = .next t ∧
    (∀ k < 4, t.rd.flags.getLsbD k = s.d.d0.getLsbD k) ∧
    (t.rd.batteryLow = true ↔ t.rd.flags.getLsbD 1 = false) ∧
    (t.rd.pressureLossAlarm = true ↔ t.rd.flags.getLsbD 3 = false)

/-- `46_field_extractor.md` R139, R140 (D16): temperature and pressure are exact. -/
def Obligations.TemperatureAndPressureAreExact : Prop :=
  ∀ d : Payload,
    (extractFields d).temperature = (d.d2.toNat : Int) - 55 ∧ -55 ≤ (extractFields d).temperature ∧
    (extractFields d).temperature ≤ 200 ∧ (extractFields d).pressureBar = (d.d3.toNat : Rat) / 64

/-- `46_field_extractor.md` R141: the key nibble is dropped, and the flag bits 0 and 2 are passed through and influence
nothing else. -/
def Obligations.ReservedAndIgnoredBits : Prop :=
  (∀ (d : Payload) (b : Byte), (∀ k < 4, b.getLsbD k = d.d0.getLsbD k) → extractFields { d with d0 := b } = extractFields d) ∧
  (∀ d : Payload, (extractFields d).flags.getLsbD 0 = d.d0.getLsbD 0 ∧
    (extractFields d).flags.getLsbD 2 = d.d0.getLsbD 2) ∧
  ∀ (d : Payload) (m : Byte), m &&& 0xFA#8 = 0#8 →
    { extractFields { d with d0 := d.d0 ^^^ m } with flags := 0#4 } = { extractFields d with flags := 0#4 }

/-! ### Whole events -/

/-- `00_scope.md` R5, `40_sequencer.md` R81, R85, R87, `70_reset_and_hazards.md` R186: from a well-formed START the block
stays busy, reaches DONE within the bound, and has then added to the sink exactly the readings of `process`, counted
them, recorded the last rejection's reason, and complemented the valid bits and no other. -/
def Obligations.EventComputesProcessAndEnds : Prop :=
  ∀ (s : State) (loaded : List Bool), s.busy = false → s.pins.start = true → (∀ p ∈ s.inputs, p.rst = false) →
    s.pins.nbitsIn ≤ s.nbitsMax → Memory.readBits s.buf 0 s.pins.nbitsIn = some loaded →
    (∀ a ∈ s.stale, s.pins.nbitsIn ≤ 8 * a) →
    ∃ k t, 0 < k ∧ k ≤ maxOperations s.pins.nbitsIn ∧ steps k s = .next t ∧ t.phase = encode .done ∧
      (∀ j, 0 < j → j < k → ∃ u, steps j s = .next u ∧ u.busy = true) ∧
      t.emitted = s.emitted ++ (process loaded).readings ∧ t.eventCount = (process loaded).readings.length ∧
      t.lastReason = (process loaded).reason ∧ t.nbits = s.pins.nbitsIn ∧
      Memory.readBits t.buf 0 t.nbits = some (loaded.map not) ∧
      ∀ i, s.pins.nbitsIn ≤ i → Memory.bit? t.buf i = Memory.bit? s.buf i

/-- `41_preamble_scanner.md` R94, `40_sequencer.md` R86: every occurrence of the pattern that leaves 80 bits is tried
exactly once, in increasing order, and nothing else is. -/
def Obligations.EveryCandidateIsTriedOnce : Prop :=
  ∀ loaded : List Bool,
    process loaded = (candidates (loaded.map not)).foldl (fun r p => r.add (attemptAt (loaded.map not) p)) ⟨[], .none⟩ ∧
    (candidates (loaded.map not)).Pairwise (· < ·) ∧ (candidates (loaded.map not)).length ≤ maxAttempts loaded.length ∧
    ∀ p, p ∈ candidates (loaded.map not) ↔
      p + 80 ≤ loaded.length ∧ ∀ k < 24, (loaded.map not)[p + k]? = some ((0x5555A9#24).getMsbD k)

/-- `00_scope.md` R5, `30_encoding.md` R62 (D11, D12, D13): the readings of an event are those of the valid frames in the
buffer and no others: a pattern, then 72 transition pairs from 16 bits after it that code a window with the sync word
and a zero CRC. -/
def Obligations.ReadingsAreThoseOfTheValidFrames : Prop :=
  ∀ (loaded : List Bool) (x : Reading),
    x ∈ (process loaded).readings ↔
      ∃ (p : Nat) (w : Window), p + 160 ≤ loaded.length ∧
        (∀ k < 24, (loaded.map not)[p + k]? = some ((0x5555A9#24).getMsbD k)) ∧
        (∀ i < 72, bitsCode (loaded.map not) (p + 16 + 2 * i) (w.getMsbD i)) ∧
        windowByte w 0 = 0x19#8 ∧ windowByte w 1 = 0xCF#8 ∧ crc16 (crcSpan w) = 0#16 ∧
        x = extractFields (descramble (scrambledPayload w))

/-- `42_manchester_decoder.md` R102, `70_reset_and_hazards.md` R181 (D2, D11, D12): for every plain payload, when the host
loads the transmission of its frame through the port and raises `start`, the event ends in DONE with exactly one
reading, that of the payload, whatever the host drives afterwards, short of reset. -/
def Obligations.TransmittedPacketIsReadOnce : Prop :=
  ∀ (s : State) (r : Payload) (rest : List Pins), s.busy = false → Memory.wf s.buf → 160 ≤ s.nbitsMax →
    s.inputs = (eventOfInverted (transmission (frameOf (scramble r)))).pins ++ rest → (∀ p ∈ rest, p.rst = false) →
    ∃ k t, steps k s = .next t ∧ t.phase = encode .done ∧ t.emitted = s.emitted ++ [extractFields r] ∧ t.eventCount = 1
end

