-- ==== Sys2Proof/Laws/Memory.lean ====
section
/-! SUPPORT. The laws of the bit buffer: reading after each memory operation, and its canonical form. -/

namespace Sys2Proof.Machine

/-! ### One byte -/

@[simp] theorem Memory.byte?_nil (a : Nat) : Memory.byte? [] a = none := rfl

theorem Memory.byte?_cons (c : Host.Cell) (m : Memory) (a : Nat) :
    Memory.byte? (c :: m) a = if c.1 = a then some c.2 else Memory.byte? m a := rfl

/-- A byte below every listed address has no value. -/
theorem Memory.byte?_eq_none_of_lt (m : Memory) (a : Nat) (h : ∀ c ∈ m, a < c.1) :
    Memory.byte? m a = none := by
  induction m with
  | nil => rfl
  | cons c m ih =>
    have hc : c.1 ≠ a := by have := h c (by simp); omega
    rw [Memory.byte?_cons, if_neg hc]
    exact ih fun c' hc' => h c' (by simp [hc'])

/-- Reading a byte after writing one. -/
theorem Memory.byte?_setByte (m : Memory) (a : Nat) (b : Byte) (a' : Nat) (h : Memory.wf m) :
    Memory.byte? (Memory.setByte m a b) a' = if a = a' then some b else Memory.byte? m a' := by
  induction m with
  | nil => rfl
  | cons c m ih =>
    have hm : Memory.wf m := (List.pairwise_cons.1 h).2
    unfold Memory.setByte
    split
    · rw [Memory.byte?_cons]
    · split
      · next hne heq =>
        subst heq
        simp only [Memory.byte?_cons]
        split <;> rfl
      · next hlt hne =>
        rw [Memory.byte?_cons, ih hm, Memory.byte?_cons]
        by_cases h1 : c.1 = a'
        · subst h1; simp [hne]
        · simp [h1]

/-- Reading a byte after INVERT: the places below `n` are complemented. -/
theorem Memory.byte?_invertBelow (m : Memory) (n a : Nat) :
    Memory.byte? (Memory.invertBelow m n) a = (Memory.byte? m a).map fun b => b ^^^ placesBelow n a := by
  induction m with
  | nil => rfl
  | cons c m ih =>
    rw [Memory.byte?_cons]
    show Memory.byte? ((c.1, c.2 ^^^ placesBelow n c.1) :: Memory.invertBelow m n) a = _
    rw [Memory.byte?_cons]
    by_cases h : c.1 = a
    · subst h; simp
    · simp only [h, if_false]; exact ih

/-- Reading a byte after a reset cut INVERT off. -/
theorem Memory.byte?_forgetBelow (m : Memory) (n a : Nat) :
    Memory.byte? (Memory.forgetBelow m n) a = if n ≤ 8 * a then Memory.byte? m a else none := by
  induction m with
  | nil => simp [Memory.forgetBelow]
  | cons c m ih =>
    have ih' : Memory.byte? (m.filter fun c => decide (n ≤ 8 * c.1)) a =
        if n ≤ 8 * a then Memory.byte? m a else none := ih
    unfold Memory.forgetBelow
    rw [List.filter_cons, Memory.byte?_cons]
    by_cases hk : n ≤ 8 * c.1
    · simp only [hk, decide_true, if_true]
      rw [Memory.byte?_cons, ih']
      by_cases h : c.1 = a
      · subst h; simp [hk]
      · simp [h]
    · simp only [hk, decide_false]
      rw [if_neg (by simp), ih']
      by_cases h : c.1 = a
      · subst h; simp [hk]
      · simp [h]

/-! ### One bit -/

/-- The mask of the places below `n`, place by place. -/
theorem byteBit_placesBelow (n a k : Nat) (hk : k < 8) :
    byteBit (placesBelow n a) k = decide (8 * a + k < n) := by
  unfold byteBit placesBelow
  have hm : ∀ x : Nat, x ≤ 8 → ∀ j : Nat, j < 8 →
      ((0xFF#8 <<< (8 - x)).getLsbD (7 - j)) = decide (j < x) := by decide
  rw [hm (min 8 (n - 8 * a)) (by omega) k hk]
  by_cases h : 8 * a + k < n <;> simp [h] <;> omega

theorem byteBit_xor (b c : Byte) (k : Nat) : byteBit (b ^^^ c) k = (byteBit b k ^^ byteBit c k) := by
  simp [byteBit]

/-- Reading a bit after INVERT (`40_sequencer.md` rule R82). -/
theorem Memory.bit?_invertBelow (m : Memory) (n i : Nat) :
    Memory.bit? (Memory.invertBelow m n) i = (Memory.bit? m i).map fun b => if i < n then !b else b := by
  unfold Memory.bit?
  rw [Memory.byte?_invertBelow]
  cases Memory.byte? m (i / 8) with
  | none => rfl
  | some b =>
    have hi : 8 * (i / 8) + i % 8 = i := by omega
    simp only [Option.map_some, byteBit_xor, byteBit_placesBelow _ _ _ (Nat.mod_lt i (by omega : 0 < 8)), hi]
    by_cases h : i < n <;> simp [h]

/-- Reading a bit after the host wrote a byte (`10_state.md` rule R20). -/
theorem Memory.bit?_setByte (m : Memory) (a : Nat) (b : Byte) (i : Nat) (h : Memory.wf m) :
    Memory.bit? (Memory.setByte m a b) i = if i / 8 = a then some (byteBit b (i % 8)) else Memory.bit? m i := by
  unfold Memory.bit?
  rw [Memory.byte?_setByte _ _ _ _ h]
  by_cases ha : a = i / 8
  · simp [ha]
  · rw [if_neg ha, if_neg (fun h' => ha h'.symm)]

/-! ### Bit strings -/

/-- `MemRead` answers the bits, in order, exactly when every position holds a value. -/
theorem Memory.readBits_eq_some (m : Memory) (a n : Nat) (l : List Bool) :
    Memory.readBits m a n = some l ↔ l.length = n ∧ ∀ i, i < n → Memory.bit? m (a + i) = l[i]? := by
  induction n generalizing a l with
  | zero =>
    unfold Memory.readBits
    constructor
    · intro h; simp at h; subst h; simp
    · rintro ⟨h, -⟩; rw [List.length_eq_zero_iff.1 h]
  | succ n ih =>
    unfold Memory.readBits
    constructor
    · intro h
      split at h
      · next b bs hb hbs =>
        obtain rfl : b :: bs = l := by simpa using h
        obtain ⟨hl, hi⟩ := (ih _ _).1 hbs
        refine ⟨by simp [hl], fun i hin => ?_⟩
        cases i with
        | zero => simpa using hb
        | succ i =>
          have := hi i (by omega)
          rw [show a + (i + 1) = a + 1 + i by omega, this]; simp
      · cases h
    · rintro ⟨hl, hi⟩
      cases l with
      | nil => simp at hl
      | cons b bs =>
        have h0 : Memory.bit? m a = some b := by simpa using hi 0 (by omega)
        have hbs : Memory.readBits m (a + 1) n = some bs := by
          refine (ih _ _).2 ⟨by simpa using hl, fun i hin => ?_⟩
          have := hi (i + 1) (by omega)
          rw [show a + 1 + i = a + (i + 1) by omega, this]; simp
        rw [h0, hbs]

theorem Memory.readBits_length {m : Memory} {a n : Nat} {l : List Bool}
    (h : Memory.readBits m a n = some l) : l.length = n := ((Memory.readBits_eq_some m a n l).1 h).1

/-- `written` says that every position below `n` holds a value. -/
theorem Memory.written_iff (m : Memory) (n : Nat) :
    Memory.written m n = true ↔ ∀ i, i < n → (Memory.bit? m i).isSome = true := by
  simp [Memory.written]

/-- When every position holds a value, `MemRead` answers. -/
theorem Memory.readBits_isSome (m : Memory) (a n : Nat) :
    (Memory.readBits m a n).isSome = true ↔ ∀ i, i < n → (Memory.bit? m (a + i)).isSome = true := by
  induction n generalizing a with
  | zero => simp [Memory.readBits]
  | succ n ih =>
    have key : (Memory.readBits m a (n + 1)).isSome = true ↔
        (Memory.bit? m a).isSome = true ∧ (Memory.readBits m (a + 1) n).isSome = true := by
      rw [Memory.readBits]
      cases Memory.bit? m a <;> cases Memory.readBits m (a + 1) n <;> simp
    rw [key, ih]
    constructor
    · rintro ⟨h0, h⟩ i hi
      cases i with
      | zero => exact h0
      | succ i => rw [show a + (i + 1) = a + 1 + i by omega]; exact h i (by omega)
    · intro h
      refine ⟨h 0 (by omega), fun i hi => ?_⟩
      rw [show a + 1 + i = a + (i + 1) by omega]; exact h (i + 1) (by omega)

/-- The valid bits are readable exactly when they are all written. -/
theorem State.buffer?_isSome (s : State) :
    s.buffer?.isSome = true ↔ Memory.written s.buf s.nbits = true := by
  rw [State.buffer?, Memory.readBits_isSome, Memory.written_iff]; simp

/-! ### The canonical form -/

theorem Memory.wf_nil : Memory.wf [] := List.Pairwise.nil

/-- Every address of the buffer after a host write was there or is the one written. -/
theorem Memory.mem_setByte {m : Memory} {a : Nat} {b : Byte} {c : Host.Cell}
    (h : c ∈ Memory.setByte m a b) : c = (a, b) ∨ c ∈ m := by
  induction m with
  | nil => simpa [Memory.setByte] using h
  | cons c' m ih =>
    unfold Memory.setByte at h
    split at h
    · simpa using h
    · split at h
      · simp at h ⊢; tauto
      · simp at h ⊢; rcases h with h | h
        · tauto
        · rcases ih h with h | h <;> tauto

/-- A host write keeps the canonical form. -/
theorem Memory.wf_setByte {m : Memory} (a : Nat) (b : Byte) (h : Memory.wf m) :
    Memory.wf (Memory.setByte m a b) := by
  induction m with
  | nil => simp [Memory.setByte, Memory.wf]
  | cons c m ih =>
    obtain ⟨hc, hm⟩ := List.pairwise_cons.1 h
    unfold Memory.setByte
    split
    · next hlt =>
      refine List.pairwise_cons.2 ⟨fun c' hc' => ?_, h⟩
      rcases List.mem_cons.1 hc' with rfl | hc'
      · exact hlt
      · exact Nat.lt_trans hlt (hc c' hc')
    · split
      · next heq => exact List.pairwise_cons.2 ⟨fun c' hc' => heq ▸ hc c' hc', hm⟩
      · next hlt hne =>
        refine List.pairwise_cons.2 ⟨fun c' hc' => ?_, ih hm⟩
        rcases Memory.mem_setByte hc' with rfl | hc'
        · show c.1 < a; omega
        · exact hc c' hc'

/-- INVERT keeps the canonical form. -/
theorem Memory.wf_invertBelow {m : Memory} (n : Nat) (h : Memory.wf m) : Memory.wf (Memory.invertBelow m n) := by
  unfold Memory.invertBelow
  exact List.pairwise_map.2 h

/-- A reset inside INVERT keeps the canonical form. -/
theorem Memory.wf_forgetBelow {m : Memory} (n : Nat) (h : Memory.wf m) : Memory.wf (Memory.forgetBelow m n) :=
  List.Pairwise.filter _ h

/-! ### Bytes that wait to be written since the last reset -/

/-- A byte holds a value exactly when its address is listed. -/
theorem Memory.byte?_isSome_iff (m : Memory) (a : Nat) : (Memory.byte? m a).isSome = true ↔ a ∈ m.map (·.1) := by
  induction m with
  | nil => simp [Memory.byte?]
  | cons c m ih =>
    unfold Memory.byte?
    split
    · next h => simp [h]
    · next h => simp [ih, Ne.symm h]

/-- `reloaded` says that no position below `n` lies in a byte that waits. -/
theorem State.reloaded_iff (s : State) (n : Nat) : s.reloaded n = true ↔ ∀ k < n, k / 8 ∉ s.stale := by
  simp only [State.reloaded, List.all_eq_true, decide_eq_true_eq]
  constructor
  · intro h k hk hm; have := h _ hm; omega
  · intro h a ha; by_contra hc
    exact h (8 * a) (by omega) (by simpa using ha)

/-- Reset keeps the canonical form of the buffer. -/
theorem State.wf_bufAfterReset (s : State) (h : Memory.wf s.buf) : Memory.wf s.bufAfterReset := by
  unfold State.bufAfterReset
  split
  · exact Memory.wf_forgetBelow _ h
  · exact h

end Sys2Proof.Machine
end

