-- ==== Sys2Proof/Laws/Functions.lean ====
section
/-! SUPPORT. What the functions the operations call can answer, once for each: the window and its bytes, the pattern
search, the pair decoder. -/

namespace Sys2Proof.Machine

/-! ### The window -/

/-- One more bit in front of a bit string, as a number. -/
theorem foldl_natOfBits (l : List Bool) (n : Nat) :
    l.foldl (fun n b => 2 * n + b.toNat) n = n * 2 ^ l.length + natOfBits l := by
  induction l generalizing n with
  | nil => simp [natOfBits]
  | cons b l ih =>
    have h0 : natOfBits (b :: l) = b.toNat * 2 ^ l.length + natOfBits l := by
      show l.foldl (fun n b => 2 * n + b.toNat) (2 * 0 + b.toNat) = _
      rw [ih]; simp
    rw [List.foldl_cons, ih, h0, List.length_cons, pow_succ]
    ring

theorem natOfBits_cons (b : Bool) (l : List Bool) :
    natOfBits (b :: l) = b.toNat * 2 ^ l.length + natOfBits l := by
  show l.foldl (fun n b => 2 * n + b.toNat) (2 * 0 + b.toNat) = _
  rw [foldl_natOfBits]; simp

theorem natOfBits_lt (l : List Bool) : natOfBits l < 2 ^ l.length := by
  induction l with
  | nil => simp [natOfBits]
  | cons b l ih =>
    rw [natOfBits_cons, List.length_cons, pow_succ]
    have : b.toNat ≤ 1 := Bool.toNat_le b
    nlinarith

/-- A bit of the number of a bit string, counted from the first bit. -/
theorem natOfBits_testBit (l : List Bool) (i : Nat) (h : i < l.length) :
    (natOfBits l).testBit (l.length - 1 - i) = l[i] := by
  induction l generalizing i with
  | nil => simp at h
  | cons b l ih =>
    rw [natOfBits_cons]
    have hl := natOfBits_lt l
    cases i with
    | zero =>
      simp only [List.length_cons, Nat.add_sub_cancel, Nat.sub_zero, List.getElem_cons_zero]
      rw [Nat.mul_comm, Nat.testBit_two_pow_mul_add _ hl]
      cases b <;> simp
    | succ i =>
      have hi : i < l.length := by simpa using h
      rw [show (b :: l).length - 1 - (i + 1) = l.length - 1 - i by simp; omega]
      rw [Nat.mul_comm, Nat.testBit_two_pow_mul_add _ hl, if_pos (by omega)]
      simpa using ih i hi

/-- The positions of a window made of a bit string: the string, then zeros (`10_state.md` rule R14). -/
theorem windowBit_windowOf (l : List Bool) (hl : l.length ≤ 72) (i : Nat) (hi : i < 72) :
    windowBit (windowOf l) i = l.getD i false := by
  unfold windowBit windowOf
  rw [BitVec.getMsbD_eq_getLsbD]
  simp only [hi, decide_true, Bool.true_and, BitVec.getLsbD_ofNat, Config.winBits]
  rw [Nat.testBit_shiftLeft]
  by_cases h : i < l.length
  · have h1 : 72 - l.length ≤ 72 - 1 - i := by omega
    rw [show 72 - 1 - i - (72 - l.length) = l.length - 1 - i by omega, natOfBits_testBit l i h]
    simp [h, h1]; omega
  · have h1 : ¬ (72 - l.length ≤ 72 - 1 - i) := by omega
    simp [h, h1]

/-- Two windows with the same positions are equal. -/
theorem window_ext {w w' : Window} (h : ∀ i, i < 72 → windowBit w i = windowBit w' i) : w = w' := by
  apply BitVec.eq_of_getMsbD_eq
  intro i hi
  exact h i hi

/-- The bits of a window byte: `B[j]` has `w[8j]` as bit 7 (`10_state.md` rule R14). -/
theorem byteBit_windowByte (w : Window) (j k : Nat) (hj : j < 9) (hk : k < 8) :
    byteBit (windowByte w j) k = windowBit w (8 * j + k) := by
  unfold byteBit windowByte windowBit
  rw [BitVec.getLsbD_extractLsb', BitVec.getMsbD_eq_getLsbD]
  have h1 : 7 - k < 8 := by omega
  have h2 : 8 * j + k < 72 := by omega
  rw [show 8 * (8 - j) + (7 - k) = 72 - 1 - (8 * j + k) by omega]
  simp [h1, h2]

/-! ### The pattern search -/

/-- The pattern bit string, position by position. -/
theorem patBitString_eq : patBitString =
    [false, true, false, true, false, true, false, true, false, true, false, true, false, true, false, true,
     true, false, true, false, true, false, false, true] := by decide

theorem patBitString_length : patBitString.length = 24 := rfl

/-- A match, position by position (`41_preamble_scanner.md` rule R90). -/
theorem matchesAt_iff (buf : List Bool) (p : Nat) :
    matchesAt buf p = true ↔ ∀ k, k < 24 → buf[p + k]? = some (Config.pat.getMsbD k) := by
  unfold matchesAt
  rw [List.isPrefixOf_iff_prefix, List.prefix_iff_getElem?]
  constructor
  · intro h k hk
    have := h k (by rw [patBitString_length]; exact hk)
    rw [List.getElem?_drop] at this
    rw [this]; simp [patBitString]
  · intro h k hk
    rw [patBitString_length] at hk
    rw [List.getElem?_drop, h k hk]; simp [patBitString]

/-- A match lies wholly inside the valid bits. -/
theorem matchesAt_le {buf : List Bool} {p : Nat} (h : matchesAt buf p = true) : p + 24 ≤ buf.length := by
  have := (matchesAt_iff buf p).1 h 23 (by omega)
  have h' : p + 23 < buf.length := by
    by_contra hc
    rw [List.getElem?_eq_none (by omega)] at this
    cases this
  omega

theorem matchesAt_drop (buf : List Bool) (a p : Nat) : matchesAt (buf.drop a) p = matchesAt buf (a + p) := by
  unfold matchesAt; rw [List.drop_drop]

/-- The search in what is left of a buffer: the lowest match. -/
theorem findFrom_eq_some (l : List Bool) (a p : Nat) :
    findFrom l a = some p ↔
      ∃ k, p = a + k ∧ matchesAt l k = true ∧ ∀ j, j < k → matchesAt l j = false := by
  induction l generalizing a with
  | nil =>
    refine ⟨fun h => by simp [findFrom] at h, ?_⟩
    rintro ⟨k, -, h, -⟩
    have := matchesAt_le h
    simp at this
  | cons b bs ih =>
    have h0 : patBitString.isPrefixOf (b :: bs) = matchesAt (b :: bs) 0 := rfl
    have hs : ∀ k, matchesAt (b :: bs) (k + 1) = matchesAt bs k := fun k => rfl
    unfold findFrom
    rw [h0]
    by_cases hm : matchesAt (b :: bs) 0 = true
    · rw [if_pos hm]
      constructor
      · intro h; exact ⟨0, by simpa using h.symm, hm, by simp⟩
      · rintro ⟨k, rfl, -, hj⟩
        cases k with
        | zero => rfl
        | succ k => rw [hj 0 (by omega)] at hm; cases hm
    · rw [if_neg hm, ih]
      constructor
      · rintro ⟨k, rfl, hk, hj⟩
        refine ⟨k + 1, by omega, by rw [hs]; exact hk, fun j hjk => ?_⟩
        cases j with
        | zero => simpa using hm
        | succ j => rw [hs]; exact hj j (by omega)
      · rintro ⟨k, rfl, hk, hj⟩
        cases k with
        | zero => exact absurd hk hm
        | succ k =>
          refine ⟨k, by omega, by rw [← hs]; exact hk, fun j hjk => ?_⟩
          rw [← hs]; exact hj (j + 1) (by omega)

/-- Rule R90: `find` answers the lowest match at or after the start. -/
theorem find_eq_some (buf : List Bool) (a p : Nat) :
    find buf a = some p ↔ a ≤ p ∧ matchesAt buf p = true ∧ ∀ q, a ≤ q → q < p → matchesAt buf q = false := by
  unfold find
  rw [findFrom_eq_some]
  constructor
  · rintro ⟨k, rfl, hk, hj⟩
    rw [matchesAt_drop] at hk
    refine ⟨by omega, hk, fun q hq hqk => ?_⟩
    have := hj (q - a) (by omega)
    rwa [matchesAt_drop, show a + (q - a) = q by omega] at this
  · rintro ⟨ha, hk, hj⟩
    refine ⟨p - a, by omega, ?_, fun j hjk => ?_⟩
    · rw [matchesAt_drop, show a + (p - a) = p by omega]; exact hk
    · rw [matchesAt_drop]; exact hj _ (by omega) (by omega)

/-- Rule R90: `find` answers `NotFound` when no position at or after the start matches. -/
theorem find_eq_none (buf : List Bool) (a : Nat) :
    find buf a = none ↔ ∀ p, a ≤ p → matchesAt buf p = false := by
  constructor
  · intro h p
    induction p using Nat.strong_induction_on with
    | _ p ih =>
      intro hp
      by_contra hc
      have : find buf a = some p :=
        (find_eq_some buf a p).2 ⟨hp, by simpa using hc, fun q hq hqp => ih q hqp hq⟩
      rw [h] at this; cases this
  · intro h
    cases hf : find buf a with
    | none => rfl
    | some p =>
      obtain ⟨ha, hm, -⟩ := (find_eq_some buf a p).1 hf
      rw [h p ha] at hm; cases hm

/-! ### The pair decoder -/

theorem pairBit_eq (a b : Bool) : pairBit a b = b := rfl

theorem decodePairs_length_le (n : Nat) (l : List Bool) : (decodePairs n l).length ≤ n := by
  induction n generalizing l with
  | zero => simp [decodePairs]
  | succ n ih =>
    match l with
    | [] => simp [decodePairs]
    | [_] => simp [decodePairs]
    | a :: b :: rest =>
      unfold decodePairs
      split
      · simp
      · simp only [List.length_cons]; have := ih rest; omega

/-- Every decoded bit stands for a transition pair (`42_manchester_decoder.md` rule R100). -/
theorem decodePairs_getElem (n : Nat) (l : List Bool) (i : Nat) (b : Bool)
    (h : (decodePairs n l)[i]? = some b) : l[2 * i]? = some (!b) ∧ l[2 * i + 1]? = some b := by
  induction n generalizing l i with
  | zero => simp [decodePairs] at h
  | succ n ih =>
    match l with
    | [] => simp [decodePairs] at h
    | [_] => simp [decodePairs] at h
    | x :: y :: rest =>
      unfold decodePairs at h
      split at h
      · simp at h
      · next hxy =>
        cases i with
        | zero =>
          have hb : y = b := by simpa [pairBit_eq] using h
          subst hb
          refine ⟨?_, by simp⟩
          have : x = !y := by cases x <;> cases y <;> simp_all
          simp [this]
        | succ i =>
          have := ih rest i (by simpa using h)
          rw [show 2 * (i + 1) = 2 * i + 1 + 1 by omega, show 2 * i + 1 + 1 + 1 = 2 * i + 1 + 1 + 1 from rfl]
          simpa using this

/-- Why the decode stopped before the last pair: the next pair is not wholly there, or it has two equal bits. -/
theorem decodePairs_stop (n : Nat) (l : List Bool) (h : (decodePairs n l).length < n) :
    l.length ≤ 2 * (decodePairs n l).length + 1 ∨
      l[2 * (decodePairs n l).length]? = l[2 * (decodePairs n l).length + 1]? := by
  induction n generalizing l with
  | zero => simp [decodePairs] at h
  | succ n ih =>
    match l with
    | [] => simp [decodePairs]
    | [_] => simp [decodePairs]
    | x :: y :: rest =>
      unfold decodePairs at h ⊢
      split
      · next hxy => right; simp [hxy]
      · next hxy =>
        rw [if_neg hxy] at h
        simp only [List.length_cons] at h ⊢
        rcases ih rest (by omega) with h' | h'
        · left; omega
        · right
          rw [show 2 * ((decodePairs n rest).length + 1) = 2 * (decodePairs n rest).length + 1 + 1 by omega]
          simpa using h'

/-- Transition pairs decode: if the first `k <= n` pairs are there and code the bits of `l'`, they are the first `k`
decoded bits. -/
theorem decodePairs_of_pairs (n : Nat) (l l' : List Bool) (hn : l'.length ≤ n)
    (h : ∀ i, (hi : i < l'.length) → l[2 * i]? = some (!l'[i]) ∧ l[2 * i + 1]? = some l'[i]) :
    l' <+: decodePairs n l := by
  induction n generalizing l l' with
  | zero =>
    have : l' = [] := List.length_eq_zero_iff.1 (by omega)
    subst this; simp
  | succ n ih =>
    cases l' with
    | nil => simp
    | cons b l' =>
      obtain ⟨h0, h1⟩ := h 0 (by simp)
      match l with
      | [] => simp at h0
      | [_] => simp at h1
      | x :: y :: rest =>
        have hx : x = !b := by simpa using h0
        have hy : y = b := by simpa using h1
        subst hx hy
        unfold decodePairs
        rw [if_neg (by simp), pairBit_eq]
        refine (List.cons_prefix_cons).2 ⟨rfl, ih rest l' (by simpa using hn) fun i hi => ?_⟩
        have := h (i + 1) (by simpa using hi)
        rw [show 2 * (i + 1) = 2 * i + 1 + 1 by omega] at this
        simpa using this

end Sys2Proof.Machine
end

