-- ==== Sys2Proof/Laws/State.lean ====
section
/-! SUPPORT. One lemma per field per named update of the state, so that no proof unfolds an update. -/

namespace Sys2Proof.Machine

variable (s : State)

/-! ### `State.endEdge` -/

@[simp] theorem State.endEdge_buf : s.endEdge.buf = s.buf := rfl
@[simp] theorem State.endEdge_nbits : s.endEdge.nbits = s.nbits := rfl
@[simp] theorem State.endEdge_phase : s.endEdge.phase = s.phase := rfl
@[simp] theorem State.endEdge_cursor : s.endEdge.cursor = s.cursor := rfl
@[simp] theorem State.endEdge_cand : s.endEdge.cand = s.cand := rfl
@[simp] theorem State.endEdge_win : s.endEdge.win = s.win := rfl
@[simp] theorem State.endEdge_winLen : s.endEdge.winLen = s.winLen := rfl
@[simp] theorem State.endEdge_crc : s.endEdge.crc = s.crc := rfl
@[simp] theorem State.endEdge_d : s.endEdge.d = s.d := rfl
@[simp] theorem State.endEdge_rd : s.endEdge.rd = s.rd := rfl
@[simp] theorem State.endEdge_eventCount : s.endEdge.eventCount = s.eventCount := rfl
@[simp] theorem State.endEdge_lastReason : s.endEdge.lastReason = s.lastReason := rfl
@[simp] theorem State.endEdge_emitted : s.endEdge.emitted = s.emitted := rfl
@[simp] theorem State.endEdge_stale : s.endEdge.stale = s.stale := rfl
@[simp] theorem State.endEdge_inputs : s.endEdge.inputs = s.inputs.tail := rfl
@[simp] theorem State.endEdge_nbitsMax : s.endEdge.nbitsMax = s.nbitsMax := rfl
@[simp] theorem State.endEdge_freeIndex : s.endEdge.freeIndex = s.freeIndex + 1 := rfl

/-! ### `State.goto` -/

@[simp] theorem State.goto_buf (i : Instr) : (s.goto i).buf = s.buf := rfl
@[simp] theorem State.goto_nbits (i : Instr) : (s.goto i).nbits = s.nbits := rfl
@[simp] theorem State.goto_phase (i : Instr) : (s.goto i).phase = encode i := rfl
@[simp] theorem State.goto_cursor (i : Instr) : (s.goto i).cursor = s.cursor := rfl
@[simp] theorem State.goto_cand (i : Instr) : (s.goto i).cand = s.cand := rfl
@[simp] theorem State.goto_win (i : Instr) : (s.goto i).win = s.win := rfl
@[simp] theorem State.goto_winLen (i : Instr) : (s.goto i).winLen = s.winLen := rfl
@[simp] theorem State.goto_crc (i : Instr) : (s.goto i).crc = s.crc := rfl
@[simp] theorem State.goto_d (i : Instr) : (s.goto i).d = s.d := rfl
@[simp] theorem State.goto_rd (i : Instr) : (s.goto i).rd = s.rd := rfl
@[simp] theorem State.goto_eventCount (i : Instr) : (s.goto i).eventCount = s.eventCount := rfl
@[simp] theorem State.goto_lastReason (i : Instr) : (s.goto i).lastReason = s.lastReason := rfl
@[simp] theorem State.goto_emitted (i : Instr) : (s.goto i).emitted = s.emitted := rfl
@[simp] theorem State.goto_stale (i : Instr) : (s.goto i).stale = s.stale := rfl
@[simp] theorem State.goto_inputs (i : Instr) : (s.goto i).inputs = s.inputs := rfl
@[simp] theorem State.goto_nbitsMax (i : Instr) : (s.goto i).nbitsMax = s.nbitsMax := rfl
@[simp] theorem State.goto_freeIndex (i : Instr) : (s.goto i).freeIndex = s.freeIndex := rfl

/-! ### `State.raise` -/

@[simp] theorem State.raise_buf (r : Rejection) : (s.raise r).buf = s.buf := rfl
@[simp] theorem State.raise_nbits (r : Rejection) : (s.raise r).nbits = s.nbits := rfl
@[simp] theorem State.raise_phase (r : Rejection) : (s.raise r).phase = encode .advance := rfl
@[simp] theorem State.raise_cursor (r : Rejection) : (s.raise r).cursor = s.cursor := rfl
@[simp] theorem State.raise_cand (r : Rejection) : (s.raise r).cand = s.cand := rfl
@[simp] theorem State.raise_win (r : Rejection) : (s.raise r).win = s.win := rfl
@[simp] theorem State.raise_winLen (r : Rejection) : (s.raise r).winLen = s.winLen := rfl
@[simp] theorem State.raise_crc (r : Rejection) : (s.raise r).crc = s.crc := rfl
@[simp] theorem State.raise_d (r : Rejection) : (s.raise r).d = s.d := rfl
@[simp] theorem State.raise_rd (r : Rejection) : (s.raise r).rd = s.rd := rfl
@[simp] theorem State.raise_eventCount (r : Rejection) : (s.raise r).eventCount = s.eventCount := rfl
@[simp] theorem State.raise_lastReason (r : Rejection) : (s.raise r).lastReason = reasonOf r := rfl
@[simp] theorem State.raise_emitted (r : Rejection) : (s.raise r).emitted = s.emitted := rfl
@[simp] theorem State.raise_stale (r : Rejection) : (s.raise r).stale = s.stale := rfl
@[simp] theorem State.raise_inputs (r : Rejection) : (s.raise r).inputs = s.inputs := rfl
@[simp] theorem State.raise_nbitsMax (r : Rejection) : (s.raise r).nbitsMax = s.nbitsMax := rfl
@[simp] theorem State.raise_freeIndex (r : Rejection) : (s.raise r).freeIndex = s.freeIndex := rfl

/-! ### `State.resumeScan` -/

@[simp] theorem State.resumeScan_buf : s.resumeScan.buf = s.buf := rfl
@[simp] theorem State.resumeScan_nbits : s.resumeScan.nbits = s.nbits := rfl
@[simp] theorem State.resumeScan_phase : s.resumeScan.phase = encode .scan := rfl
@[simp] theorem State.resumeScan_cursor : s.resumeScan.cursor = s.cand + Config.adv := rfl
@[simp] theorem State.resumeScan_cand : s.resumeScan.cand = s.cand := rfl
@[simp] theorem State.resumeScan_win : s.resumeScan.win = s.win := rfl
@[simp] theorem State.resumeScan_winLen : s.resumeScan.winLen = s.winLen := rfl
@[simp] theorem State.resumeScan_crc : s.resumeScan.crc = s.crc := rfl
@[simp] theorem State.resumeScan_d : s.resumeScan.d = s.d := rfl
@[simp] theorem State.resumeScan_rd : s.resumeScan.rd = s.rd := rfl
@[simp] theorem State.resumeScan_eventCount : s.resumeScan.eventCount = s.eventCount := rfl
@[simp] theorem State.resumeScan_lastReason : s.resumeScan.lastReason = s.lastReason := rfl
@[simp] theorem State.resumeScan_emitted : s.resumeScan.emitted = s.emitted := rfl
@[simp] theorem State.resumeScan_stale : s.resumeScan.stale = s.stale := rfl
@[simp] theorem State.resumeScan_inputs : s.resumeScan.inputs = s.inputs := rfl
@[simp] theorem State.resumeScan_nbitsMax : s.resumeScan.nbitsMax = s.nbitsMax := rfl
@[simp] theorem State.resumeScan_freeIndex : s.resumeScan.freeIndex = s.freeIndex := rfl

/-! ### `State.beginEvent` -/

@[simp] theorem State.beginEvent_buf (n : Nat) : (s.beginEvent n).buf = s.buf := rfl
@[simp] theorem State.beginEvent_nbits (n : Nat) : (s.beginEvent n).nbits = n := rfl
@[simp] theorem State.beginEvent_phase (n : Nat) : (s.beginEvent n).phase = encode .invert := rfl
@[simp] theorem State.beginEvent_cursor (n : Nat) : (s.beginEvent n).cursor = 0 := rfl
@[simp] theorem State.beginEvent_cand (n : Nat) : (s.beginEvent n).cand = s.cand := rfl
@[simp] theorem State.beginEvent_win (n : Nat) : (s.beginEvent n).win = s.win := rfl
@[simp] theorem State.beginEvent_winLen (n : Nat) : (s.beginEvent n).winLen = s.winLen := rfl
@[simp] theorem State.beginEvent_crc (n : Nat) : (s.beginEvent n).crc = s.crc := rfl
@[simp] theorem State.beginEvent_d (n : Nat) : (s.beginEvent n).d = s.d := rfl
@[simp] theorem State.beginEvent_rd (n : Nat) : (s.beginEvent n).rd = s.rd := rfl
@[simp] theorem State.beginEvent_eventCount (n : Nat) : (s.beginEvent n).eventCount = 0 := rfl
@[simp] theorem State.beginEvent_lastReason (n : Nat) : (s.beginEvent n).lastReason = .none := rfl
@[simp] theorem State.beginEvent_emitted (n : Nat) : (s.beginEvent n).emitted = s.emitted := rfl
@[simp] theorem State.beginEvent_stale (n : Nat) : (s.beginEvent n).stale = s.stale := rfl
@[simp] theorem State.beginEvent_inputs (n : Nat) : (s.beginEvent n).inputs = s.inputs := rfl
@[simp] theorem State.beginEvent_nbitsMax (n : Nat) : (s.beginEvent n).nbitsMax = s.nbitsMax := rfl
@[simp] theorem State.beginEvent_freeIndex (n : Nat) : (s.beginEvent n).freeIndex = s.freeIndex := rfl

/-! ### `State.emitRecord` -/

@[simp] theorem State.emitRecord_buf (r : Reading) : (s.emitRecord r).buf = s.buf := rfl
@[simp] theorem State.emitRecord_nbits (r : Reading) : (s.emitRecord r).nbits = s.nbits := rfl
@[simp] theorem State.emitRecord_phase (r : Reading) : (s.emitRecord r).phase = s.phase := rfl
@[simp] theorem State.emitRecord_cursor (r : Reading) : (s.emitRecord r).cursor = s.cursor := rfl
@[simp] theorem State.emitRecord_cand (r : Reading) : (s.emitRecord r).cand = s.cand := rfl
@[simp] theorem State.emitRecord_win (r : Reading) : (s.emitRecord r).win = s.win := rfl
@[simp] theorem State.emitRecord_winLen (r : Reading) : (s.emitRecord r).winLen = s.winLen := rfl
@[simp] theorem State.emitRecord_crc (r : Reading) : (s.emitRecord r).crc = s.crc := rfl
@[simp] theorem State.emitRecord_d (r : Reading) : (s.emitRecord r).d = s.d := rfl
@[simp] theorem State.emitRecord_rd (r : Reading) : (s.emitRecord r).rd = s.rd := rfl
@[simp] theorem State.emitRecord_eventCount (r : Reading) : (s.emitRecord r).eventCount = s.eventCount := rfl
@[simp] theorem State.emitRecord_lastReason (r : Reading) : (s.emitRecord r).lastReason = s.lastReason := rfl
@[simp] theorem State.emitRecord_emitted (r : Reading) : (s.emitRecord r).emitted = s.emitted ++ [r] := rfl
@[simp] theorem State.emitRecord_stale (r : Reading) : (s.emitRecord r).stale = s.stale := rfl
@[simp] theorem State.emitRecord_inputs (r : Reading) : (s.emitRecord r).inputs = s.inputs := rfl
@[simp] theorem State.emitRecord_nbitsMax (r : Reading) : (s.emitRecord r).nbitsMax = s.nbitsMax := rfl
@[simp] theorem State.emitRecord_freeIndex (r : Reading) : (s.emitRecord r).freeIndex = s.freeIndex := rfl

/-! ### `State.applyReset` -/

@[simp] theorem State.applyReset_buf : s.applyReset.buf = s.bufAfterReset := rfl
@[simp] theorem State.applyReset_nbits : s.applyReset.nbits = 0 := rfl
@[simp] theorem State.applyReset_phase : s.applyReset.phase = encode .idle := rfl
@[simp] theorem State.applyReset_cursor : s.applyReset.cursor = 0 := rfl
@[simp] theorem State.applyReset_cand : s.applyReset.cand = 0 := rfl
@[simp] theorem State.applyReset_win : s.applyReset.win = 0#72 := rfl
@[simp] theorem State.applyReset_winLen : s.applyReset.winLen = 0 := rfl
@[simp] theorem State.applyReset_crc : s.applyReset.crc = 0#16 := rfl
@[simp] theorem State.applyReset_d : s.applyReset.d = Payload.zero := rfl
@[simp] theorem State.applyReset_rd : s.applyReset.rd = Reading.zero := rfl
@[simp] theorem State.applyReset_eventCount : s.applyReset.eventCount = 0 := rfl
@[simp] theorem State.applyReset_lastReason : s.applyReset.lastReason = .none := rfl
@[simp] theorem State.applyReset_emitted : s.applyReset.emitted = s.emitted := rfl
@[simp] theorem State.applyReset_stale : s.applyReset.stale = s.bufAfterReset.map (·.1) := rfl
@[simp] theorem State.applyReset_inputs : s.applyReset.inputs = s.inputs := rfl
@[simp] theorem State.applyReset_nbitsMax : s.applyReset.nbitsMax = s.nbitsMax := rfl
@[simp] theorem State.applyReset_freeIndex : s.applyReset.freeIndex = s.freeIndex := rfl

end Sys2Proof.Machine
end

