-- ==== Sys2Proof/Laws/Operations.lean ====
section
/-! SUPPORT. For each shared operation, everything it can answer, once. -/

namespace Sys2Proof.Machine

/-! ### Going on from a next state -/

@[simp] theorem andThen_next (s : State) (f : State → Host.Outcome State Fault Refusal) :
    andThen (.next s) f = f s := rfl

@[simp] theorem andThen_fault (r : Fault) (f : State → Host.Outcome State Fault Refusal) :
    andThen (.fault r) f = .fault r := rfl

@[simp] theorem andThen_refused (r : Refusal) (f : State → Host.Outcome State Fault Refusal) :
    andThen (.refused r) f = .refused r := rfl

/-- A sequence answers a next state only through a next state of its first part. -/
theorem andThen_eq_next {o : Host.Outcome State Fault Refusal} {f : State → Host.Outcome State Fault Refusal}
    {t : State} : andThen o f = .next t ↔ ∃ s, o = .next s ∧ f s = .next t := by
  cases o <;> simp

/-! ### The selector -/

theorem encode_injective : ∀ i j : Instr, encode i = encode j → i = j := by
  intro i j h; cases i <;> cases j <;> first | rfl | exact absurd h (by decide)

@[simp] theorem encode_inj (i j : Instr) : encode i = encode j ↔ i = j :=
  ⟨encode_injective i j, fun h => h ▸ rfl⟩

@[simp] theorem phaseIn_goto (s : State) (i : Instr) : (s.goto i).phase = encode i := rfl

/-- `busy` by the phases it names (`10_state.md` rule R17). -/
theorem busy_eq_false (s : State) : s.busy = false ↔ s.phase = encode .idle ∨ s.phase = encode .done := by
  unfold State.busy
  by_cases h : s.phase = encode .idle <;> by_cases h' : s.phase = encode .done <;> simp [h, h']

theorem busy_of_phase {s : State} {i : Instr} (h : s.phase = encode i) (hi : i ≠ .idle) (hd : i ≠ .done) :
    s.busy = true := by
  cases hb : s.busy with
  | true => rfl
  | false =>
    rcases (busy_eq_false s).1 hb with h' | h'
    · exact absurd (encode_injective _ _ (h.symm.trans h')) hi
    · exact absurd (encode_injective _ _ (h.symm.trans h')) hd

/-! ### START and the waits -/

/-- What IDLE and DONE do when they answer a next state (`40_sequencer.md` rules R80, R81, R84). -/
theorem awaitStart_eq_next {s t : State} (h : awaitStart s = .next t) :
    (s.pins.start = false ∧ t = s) ∨
    (s.pins.start = true ∧ s.pins.nbitsIn ≤ s.nbitsMax ∧ Memory.written s.buf s.pins.nbitsIn = true ∧
      s.reloaded s.pins.nbitsIn = true ∧ t = s.beginEvent s.pins.nbitsIn) := by
  unfold awaitStart at h
  split at h
  · next hs =>
    unfold startEvent at h
    split at h
    · next hn =>
      split at h
      · next hw =>
        simp only [Bool.and_eq_true] at hw
        exact .inr ⟨hs, hn, hw.1, hw.2, by simpa using h.symm⟩
      · cases h
    · cases h
  · next hs => exact .inl ⟨by simpa using hs, by simpa using h.symm⟩

/-- When IDLE and DONE refuse (`10_state.md` rule R25), and that they never fault. -/
theorem awaitStart_not_fault (s : State) (r : Fault) : awaitStart s ≠ .fault r := by
  unfold awaitStart startEvent
  split <;> (try split) <;> (try split) <;> simp

/-! ### The host port -/

/-- What the host port does when it answers a next state (`10_state.md` rule R20). -/
theorem hostPort_eq_next {s t : State} (h : hostPort s = .next t) :
    t = s ∨ (s.pins.hbWe = true ∧ s.busy = false ∧ s.pins.start = false ∧ s.pins.hbAddr < byteCount s.nbitsMax ∧
      t = { s with
        buf := Memory.setByte s.buf s.pins.hbAddr s.pins.hbWdata
        stale := s.stale.filter fun a => decide (a ≠ s.pins.hbAddr) }) := by
  unfold hostPort at h
  split at h
  · next hc =>
    split at h
    · next ha =>
      right
      simp only [Bool.and_eq_true, Bool.not_eq_true'] at hc
      exact ⟨hc.1.1, hc.1.2, hc.2, ha, by simpa using h.symm⟩
    · cases h
  · exact .inl (by simpa using h.symm)

theorem hostPort_of_busy {s : State} (h : s.busy = true) : hostPort s = .next s := by
  unfold hostPort; simp [h]

theorem hostPort_of_start {s : State} (h : s.pins.start = true) : hostPort s = .next s := by
  unfold hostPort; simp [h]

theorem hostPort_of_no_write {s : State} (h : s.pins.hbWe = false) : hostPort s = .next s := by
  unfold hostPort; simp [h]

/-! ### One step -/

/-- Everything a step that answers a next state can have done. -/
theorem step_cases {s t : State} (h : step s = .next t) :
    (s.pins.rst = true ∧ t = s.applyReset.endEdge) ∨
    (s.pins.rst = false ∧ ∃ i u v, fetch s = .ok i ∧ hostPort s = .next u ∧ exec i u = .next v ∧ t = v.endEdge) := by
  unfold step at h
  split at h
  · next hr => exact .inl ⟨hr, by simpa using h.symm⟩
  · next hr =>
    right
    refine ⟨by simpa using hr, ?_⟩
    split at h
    · cases h
    · next i hf =>
      obtain ⟨u, hu, hv⟩ := andThen_eq_next.1 h
      obtain ⟨v, hv, ht⟩ := andThen_eq_next.1 hv
      exact ⟨i, u, v, hf, hu, hv, by simpa using ht.symm⟩

/-- The operation `fetch` answers is the one whose selector value `phase` holds. -/
theorem fetch_eq_ok {s : State} {i : Instr} (h : fetch s = .ok i) : s.phase = encode i := by
  have key : ∀ p : Phase, ∀ j, decode p = .ok j → p = encode j := by
    intro p j hj
    have : ∀ p : Phase, (match decode p with | .ok k => decide (p = encode k) | .error _ => true) = true := by decide
    have := this p
    rw [hj] at this
    simpa using this
  exact key _ _ h

/-- While busy, with no reset, a step is the selected operation and the passing of the edge. -/
theorem step_of_busy {s : State} {i : Instr} (hr : s.pins.rst = false) (hf : fetch s = .ok i) (hb : s.busy = true) :
    step s = andThen (exec i s) fun t => .next t.endEdge := by
  unfold step
  simp [hr, hf, hostPort_of_busy hb]

end Sys2Proof.Machine
end

