-- ==== Sys2Proof/Laws/Meanings.lean ====
section
/-! SUPPORT. For each operation, everything its meaning can answer as a next state, once. -/

namespace Sys2Proof.Machine

theorem execInvert_eq_next {s t : State} (h : execInvert s = .next t) :
    Memory.written s.buf s.nbits = true ∧ t = { s with buf := Memory.invertBelow s.buf s.nbits }.goto .scan := by
  unfold execInvert at h
  split at h
  · next hw => exact ⟨hw, by simpa using h.symm⟩
  · cases h

theorem execScan_eq_next {s t : State} (h : execScan s = .next t) :
    ∃ buf, s.buffer? = some buf ∧
      ((∃ p, find buf s.cursor = some p ∧ p + 80 ≤ s.nbits ∧ t = { s with cand := p }.goto .mdec) ∨
       ((∀ p, find buf s.cursor = some p → s.nbits < p + 80) ∧ t = s.goto .done)) := by
  unfold execScan at h
  split at h
  · cases h
  · next buf hb =>
    refine ⟨buf, hb, ?_⟩
    split at h
    · next hf => exact .inr ⟨by simp [hf], by simpa using h.symm⟩
    · next p hf =>
      split at h
      · next hp => exact .inl ⟨p, hf, hp, by simpa using h.symm⟩
      · next hp =>
        refine .inr ⟨fun q hq => ?_, by simpa using h.symm⟩
        rw [hf] at hq
        have : p = q := by simpa using hq
        subst this
        simp only [Config.minRemain] at hp
        omega

theorem execMdec_eq_next {s t : State} (h : execMdec s = .next t) :
    ∃ buf, s.buffer? = some buf ∧
      (((manchester buf (s.cand + 16)).1 = 72 ∧
        t = { s with win := (manchester buf (s.cand + 16)).2, winLen := 72 }.goto .syncchk) ∨
       ((manchester buf (s.cand + 16)).1 < 72 ∧ ∃ c,
        t = { s with win := (manchester buf (s.cand + 16)).2, winLen := (manchester buf (s.cand + 16)).1 }.raise
          (.sanityFail c))) := by
  unfold execMdec at h
  split at h
  · cases h
  · next buf hb =>
    refine ⟨buf, hb, ?_⟩
    dsimp only at h
    split at h
    · next hlt => exact .inr ⟨hlt, _, (Host.Outcome.next.inj h).symm⟩
    · next hge =>
      have hge : ¬ (manchester buf (s.cand + 16)).1 < 72 := hge
      have hle : (manchester buf (s.cand + 16)).1 ≤ 72 := decodePairs_length_le _ _
      have heq : (manchester buf (s.cand + 16)).1 = 72 := by omega
      refine .inl ⟨heq, ?_⟩
      rw [← heq]
      exact (Host.Outcome.next.inj h).symm

theorem execSyncchk_eq_next {s t : State} (h : execSyncchk s = .next t) :
    (syncOk s.win = true ∧ t = s.goto .crcchk) ∨ (syncOk s.win = false ∧ t = s.raise (.sanityFail .sync)) := by
  unfold execSyncchk at h
  split at h
  · next hs => exact .inl ⟨hs, by simpa using h.symm⟩
  · next hs => exact .inr ⟨by simpa using hs, by simpa using h.symm⟩

theorem execCrcchk_eq_next {s t : State} (h : execCrcchk s = .next t) :
    (crc16 (crcSpan s.win) = 0#16 ∧ t = { s with crc := 0#16 }.goto .descr) ∨
    (crc16 (crcSpan s.win) ≠ 0#16 ∧
      t = { s with crc := crc16 (crcSpan s.win) }.raise (.integrityFail (crc16 (crcSpan s.win)))) := by
  unfold execCrcchk at h
  dsimp only at h
  split at h
  · next hc =>
    refine .inl ⟨hc, ?_⟩
    rw [hc] at h
    simpa using h.symm
  · next hc => exact .inr ⟨hc, by simpa using h.symm⟩

theorem execDescr_eq_next {s t : State} (h : execDescr s = .next t) :
    t = { s with d := descramble (scrambledPayload s.win) }.goto .extract := by
  simpa [execDescr] using h.symm

theorem execExtract_eq_next {s t : State} (h : execExtract s = .next t) :
    t = { s with rd := extractFields s.d }.goto .emit := by
  simpa [execExtract] using h.symm

theorem execEmit_eq_next {s t : State} (h : execEmit s = .next t) :
    t = { s.emitRecord s.rd with eventCount := s.eventCount + 1 }.goto .advance := by
  simpa [execEmit] using h.symm

theorem execAdvance_eq_next {s t : State} (h : execAdvance s = .next t) : t = s.resumeScan := by
  simpa [execAdvance] using h.symm

end Sys2Proof.Machine
end

