-- ==== Sys2Proof/Laws/PerInstr.lean ====
section
/-! SUPPORT. Statements made for every instruction, one lemma per constructor. -/

/-- The selector value of an operation decodes to it, and is one of the eleven (`30_encoding.md` rules R66, R68). -/
def Sys2Proof.Laws.EncodeDecode.Statement (i : Sys2Proof.Instr) : Prop :=
  Sys2Proof.decode (Sys2Proof.encode i) = .ok i ∧ (Sys2Proof.encode i).wf = true ∧ i.wf = true

namespace Sys2Proof.Laws

theorem EncodeDecode.idle : EncodeDecode.Statement .idle := ⟨rfl, rfl, rfl⟩
theorem EncodeDecode.invert : EncodeDecode.Statement .invert := ⟨rfl, rfl, rfl⟩
theorem EncodeDecode.scan : EncodeDecode.Statement .scan := ⟨rfl, rfl, rfl⟩
theorem EncodeDecode.mdec : EncodeDecode.Statement .mdec := ⟨rfl, rfl, rfl⟩
theorem EncodeDecode.syncchk : EncodeDecode.Statement .syncchk := ⟨rfl, rfl, rfl⟩
theorem EncodeDecode.crcchk : EncodeDecode.Statement .crcchk := ⟨rfl, rfl, rfl⟩
theorem EncodeDecode.descr : EncodeDecode.Statement .descr := ⟨rfl, rfl, rfl⟩
theorem EncodeDecode.extract : EncodeDecode.Statement .extract := ⟨rfl, rfl, rfl⟩
theorem EncodeDecode.emit : EncodeDecode.Statement .emit := ⟨rfl, rfl, rfl⟩
theorem EncodeDecode.advance : EncodeDecode.Statement .advance := ⟨rfl, rfl, rfl⟩
theorem EncodeDecode.done : EncodeDecode.Statement .done := ⟨rfl, rfl, rfl⟩

end Sys2Proof.Laws
end

