-- ==== Sys2Proof/Machine/Trace.lean ====
section
/-! DEFINITION. The trace notation of `30_encoding.md` rule R70 as abstract syntax: one line for one operation. "It is
not an interface of the hardware"; nothing in the step reads it (log 17). -/

namespace Sys2Proof.Machine

/-- The right side of a SCAN line. -/
inductive ScanLine where
  | candidate (p : Nat)
  | notFound
  | tooLate (p : Nat)
  deriving DecidableEq, Repr

/-- The right side of an MDEC line. -/
inductive MdecLine where
  | window (bytes : List Byte)
  | rejected (winLen : Nat) (cause : Cause)
  deriving DecidableEq, Repr

/-- The lines of rule R70. -/
inductive TraceLine where
  | start (nbits : Nat)
  | invert
  | scan (start : Nat) (result : ScanLine)
  | mdec (s : Nat) (result : MdecLine)
  | syncOk
  | syncFail (b0 b1 : Byte)
  | crc (value : BitVec 16) (ok : Bool)
  | descr (before after : List Byte)
  | extract (r : Reading)
  | emit (k : Nat)
  | advance (cursor : Nat)
  | done (eventCount : Nat) (reason : Reason)
  deriving DecidableEq, Repr

/-- The SCAN line of a buffer and a cursor. -/
def scanLine (buf : List Bool) (cursor : Nat) : ScanLine :=
  match find buf cursor with
  | none => .notFound
  | some p => if p + Config.minRemain ≤ buf.length then .candidate p else .tooLate p

/-- The MDEC line of a buffer and a window start. -/
def mdecLine (buf : List Bool) (start : Nat) : MdecLine :=
  let decoded := manchester buf start
  if decoded.1 < Config.winBits then .rejected decoded.1 (stopCause buf.length start decoded.1)
  else .window ((List.range 9).map (windowByte decoded.2))

/-- The line of the operation `i` on the state `s`; a wait in IDLE has none. -/
def traceLine (i : Instr) (s : State) : Option TraceLine :=
  match i with
  | .idle => if s.pins.start then some (.start s.pins.nbitsIn) else none
  | .invert => some .invert
  | .scan => s.buffer?.map fun buf => .scan s.cursor (scanLine buf s.cursor)
  | .mdec => s.buffer?.map fun buf => .mdec (s.cand + Config.winOffset) (mdecLine buf (s.cand + Config.winOffset))
  | .syncchk => some (if syncOk s.win then .syncOk else .syncFail (windowByte s.win 0) (windowByte s.win 1))
  | .crcchk => some (.crc (crc16 (crcSpan s.win)) (crc16 (crcSpan s.win) == 0#16))
  | .descr => some (.descr (scrambledPayload s.win).bytes (descramble (scrambledPayload s.win)).bytes)
  | .extract => some (.extract (extractFields s.d))
  | .emit => some (.emit (s.eventCount + 1))
  | .advance => some (.advance (s.cand + Config.adv))
  | .done => if s.pins.start then some (.start s.pins.nbitsIn) else some (.done s.eventCount s.lastReason)

end Sys2Proof.Machine
end

