-- ==== Sys2Proof/Tests/Slice0.lean ====
section
/-! SUPPORT. The model's own tests (expected values from the vectors of `95_test_vectors.md` and the examples of the
rules), and for each statement with hypotheses a state that meets them. -/

set_option Elab.async false

namespace Sys2Proof.Tests

open Sys2Proof.Machine

/-! ### Helpers -/

/-- The next state of an outcome, if it is one. -/
def nextOf : Host.Outcome State Fault Refusal → Option State
  | .next s => some s
  | _ => none

theorem exists_next {o : Host.Outcome State Fault Refusal} (h : (nextOf o).isSome = true) : ∃ t, o = .next t := by
  cases o with
  | next s => exact ⟨s, rfl⟩
  | fault r => cases h
  | refused r => cases h

/-- A buffer that holds these bytes from address 0 on. -/
def bufOf (bs : List Byte) : Memory := (List.range bs.length).zip bs

/-- The reset state with an operation selected and a buffer of `n` bits. -/
def at' (i : Instr) (n : Nat) (bs : List Byte) : State :=
  { State.reset with phase := encode i, nbits := n, buf := bufOf bs, nbitsMax := 160 }

/-- The reset state with these values on the ports at the next edge. -/
def withPins (s : State) (p : Pins) : State := { s with inputs := [p] }

/-- The inverted view of program P1 (`95_test_vectors.md` section 1.1). -/
def p1Inverted : List Byte :=
  [0x55#8, 0x55#8, 0xA9#8, 0x69#8, 0x5A#8, 0x55#8, 0xA5#8, 0x56#8, 0xA9#8, 0x6A#8, 0x96#8, 0x9A#8, 0x9A#8, 0x66#8,
   0xAA#8, 0x66#8, 0x59#8, 0xA9#8, 0x65#8, 0x55#8]

/-- The host buffer of program P1. -/
def p1Host : List Byte :=
  [0xAA#8, 0xAA#8, 0x56#8, 0x96#8, 0xA5#8, 0xAA#8, 0x5A#8, 0xA9#8, 0x56#8, 0x95#8, 0x69#8, 0x65#8, 0x65#8, 0x99#8,
   0x55#8, 0x99#8, 0xA6#8, 0x56#8, 0x9A#8, 0xAA#8]

/-- The window of program P1. -/
def p1Win : Window := 0x19CF3E18644A0AD1BF#72

/-- The plain payload of program P1. -/
def p1Plain : Payload := ⟨0x0A#8, 0x12#8, 0x6E#8, 0x40#8, 0x34#8⟩

/-- The reading of program P1. -/
def p1Reading : Reading := ⟨0x1234#16, 0xA#4, false, 0x40#8, false, 55#9⟩

/-- An attempt at candidate 0 of P1's buffer, about to run EMIT. -/
def p1Emit : State :=
  { at' .emit 160 p1Inverted with
    win := p1Win, winLen := 72, d := descramble (scrambledPayload p1Win),
    rd := extractFields (descramble (scrambledPayload p1Win)) }

/-- An attempt about to run CRCCHK on a full window whose sync is right and whose CRC is not (P2's corrupted frame). -/
def badCrc : State :=
  let l := transmission [0x19#8, 0xCF#8, 0x30#8, 0x5E#8, 0xF5#8, 0x0A#8, 0xF5#8, 0x21#8, 0xE1#8]
  { at' .crcchk 160 (bytesOfBits 20 l) with win := 0x19CF305EF50AF521E1#72, winLen := 72 }

/-- An attempt about to run SYNCCHK on P4's window. -/
def badSync : State :=
  let l := transmission [0x19#8, 0xCE#8, 0x3E#8, 0x18#8, 0x64#8, 0x4A#8, 0x0A#8, 0xD1#8, 0xBF#8]
  { at' .syncchk 160 (bytesOfBits 20 l) with win := 0x19CE3E18644A0AD1BF#72, winLen := 72 }

/-! ### Well-formedness and decoding -/

theorem test_selector_10_wf : Phase.wf 10#4 = true := by decide
theorem test_selector_11_refused : Phase.wf 11#4 = false := by decide
theorem test_selector_15_refused : Phase.wf 15#4 = false := by decide

/-- The words of `30_encoding.md` rule R66's table, written out. -/
theorem test_decode_words :
    decode 0b0000#4 = .ok .idle ∧ decode 0b0001#4 = .ok .invert ∧ decode 0b0010#4 = .ok .scan ∧
    decode 0b0011#4 = .ok .mdec ∧ decode 0b0100#4 = .ok .syncchk ∧ decode 0b0101#4 = .ok .crcchk ∧
    decode 0b0110#4 = .ok .descr ∧ decode 0b0111#4 = .ok .extract ∧ decode 0b1000#4 = .ok .emit ∧
    decode 0b1001#4 = .ok .advance ∧ decode 0b1010#4 = .ok .done ∧
    decode 0b1011#4 = .error (.reservedPhase 0b1011#4) := ⟨rfl, rfl, rfl, rfl, rfl, rfl, rfl, rfl, rfl, rfl, rfl, rfl⟩

theorem test_decodeTableWord : decodeTableWord 8 7 = some .extract ∧ decodeTableWord 8 12 = none := by decide

/-- The selected operation is the first that runs after reset. -/
theorem test_withFetchWord :
    fetch (State.reset.withFetchWord 8 6) = .ok .descr ∧
      (nextOf (step (State.reset.withFetchWord 8 6))).map (·.phase) = some 7#4 := ⟨rfl, by decide +kernel⟩

/-! ### Vectors of `95_test_vectors.md`, section 2 -/

theorem test_invert_keeps_pad_bits :
    Memory.invertBelow (bufOf [0xA5#8, 0x3C#8, 0xF0#8]) 20 = bufOf [0x5A#8, 0xC3#8, 0x00#8] := by decide
theorem test_invert_17 : Memory.invertBelow (bufOf [0xFF#8, 0xFF#8, 0xFF#8]) 17 = bufOf [0x00#8, 0x00#8, 0x7F#8] := by
  decide
theorem test_find_unaligned : find ((bitsOfBytes [0x2A#8, 0xAA#8, 0xD4#8, 0x80#8]).take 25) 0 = some 1 := by
  decide +kernel
theorem test_find_past_last_bit : find ((bitsOfBytes [0x55#8, 0x55#8, 0xA9#8]).take 23) 0 = none := by decide +kernel
theorem test_manchester_violation :
    manchester (bitsOfBytes [0xA9#8, 0x6B#8]) 0 = (7, 0x180000000000000000#72) := by decide +kernel
theorem test_manchester_full : manchester (bitsOfBytes p1Inverted) 16 = (72, p1Win) := by decide +kernel
theorem test_sync_order : syncOk 0xCF1900000000000000#72 = false ∧ syncOk p1Win = true := by decide +kernel
/-- The catalogue check value of CRC-16/BUYPASS (G1). -/
theorem test_crc_check_value :
    crc16 [0x31#8, 0x32#8, 0x33#8, 0x34#8, 0x35#8, 0x36#8, 0x37#8, 0x38#8, 0x39#8] = 0xFEE8#16 := by decide +kernel
theorem test_crc_of_P2 : crc16 [0x30#8, 0x5E#8, 0xF5#8, 0x0A#8, 0xF5#8, 0x21#8, 0xE1#8] = 0x8883#16 := by decide +kernel
theorem test_descramble :
    descramblePass1 ⟨0x3E#8, 0x18#8, 0x64#8, 0x4A#8, 0x0A#8⟩ = ⟨0x3E#8, 0x26#8, 0x5A#8, 0x74#8, 0x34#8⟩ ∧
      descramble ⟨0x3E#8, 0x18#8, 0x64#8, 0x4A#8, 0x0A#8⟩ = p1Plain := by decide
theorem test_scramble : scramble p1Plain = ⟨0x3E#8, 0x18#8, 0x64#8, 0x4A#8, 0x0A#8⟩ := by decide
theorem test_extract_P1 : extractFields p1Plain = p1Reading := by decide
theorem test_extract_negative :
    extractFields ⟨0x3F#8, 0x0A#8, 0x36#8, 0x3F#8, 0xBC#8⟩ = ⟨0x0ABC#16, 0xF#4, false, 0x3F#8, false, 0x1FF#9⟩ ∧
      (extractFields ⟨0x3F#8, 0x0A#8, 0x36#8, 0x3F#8, 0xBC#8⟩).temperature = -1 := by decide
theorem test_id_ascii : idAscii 0xABCD#16 = 0x61626364#32 ∧ idAscii 0x000F#16 = 0x30303066#32 := by decide
theorem test_transmission_is_P1 :
    bytesOfBits 20 (transmission (frameOf (scramble p1Plain))) = p1Inverted ∧
      (eventOfInverted (transmission (frameOf (scramble p1Plain)))).bytes = p1Host := by decide +kernel

/-! ### One step of each operation -/

theorem test_step_idle_waits : (nextOf (step State.reset)).map (·.phase) = some 0#4 := by decide +kernel
theorem test_step_idle_starts :
    (nextOf (step (withPins (at' .idle 0 [0x12#8]) (Pins.startWith 8)))).map (fun t => (t.phase, t.nbits, t.buf)) =
      some (1#4, 8, bufOf [0x12#8]) := by decide +kernel
theorem test_step_done_starts_again :
    (nextOf (step (withPins { p1Emit with phase := 10#4, eventCount := 1 } (Pins.startWith 160)))).map
      (fun t => (t.phase, t.eventCount, t.cursor)) = some (1#4, 0, 0) := by decide +kernel
theorem test_step_invert :
    (nextOf (step (at' .invert 24 [0xAA#8, 0xAA#8, 0x56#8]))).map (fun t => (t.phase, t.buf)) =
      some (2#4, bufOf [0x55#8, 0x55#8, 0xA9#8]) := by decide +kernel
theorem test_step_scan_80 :
    (nextOf (step (at' .scan 80 p1Inverted))).map (fun t => (t.phase, t.cand)) = some (3#4, 0) := by decide +kernel
theorem test_step_scan_79 : (nextOf (step (at' .scan 79 p1Inverted))).map (·.phase) = some 10#4 := by decide +kernel
theorem test_step_mdec_full :
    (nextOf (step (at' .mdec 160 p1Inverted))).map (fun t => (t.phase, t.winLen, t.win)) = some (4#4, 72, p1Win) := by
  decide +kernel
theorem test_step_mdec_159 :
    (nextOf (step (at' .mdec 159 p1Inverted))).map (fun t => (t.phase, t.winLen, t.lastReason)) =
      some (9#4, 71, .sanity) := by decide +kernel
theorem test_step_syncchk_rejects :
    (nextOf (step badSync)).map (fun t => (t.phase, t.lastReason)) = some (9#4, .sanity) := by decide +kernel
theorem test_step_crcchk_rejects :
    (nextOf (step badCrc)).map (fun t => (t.phase, t.lastReason, t.crc)) = some (9#4, .integrity, 0x8883#16) := by
  decide +kernel
theorem test_step_crcchk_accepts :
    (nextOf (step { at' .crcchk 160 [] with win := p1Win })).map (fun t => (t.phase, t.crc)) = some (6#4, 0#16) := by
  decide +kernel
theorem test_step_descr :
    (nextOf (step { at' .descr 160 [] with win := p1Win })).map (fun t => (t.phase, t.d)) = some (7#4, p1Plain) := by
  decide +kernel
theorem test_step_extract :
    (nextOf (step { at' .extract 160 [] with d := p1Plain })).map (fun t => (t.phase, t.rd)) = some (8#4, p1Reading) := by
  decide +kernel
theorem test_step_emit :
    (nextOf (step p1Emit)).map (fun t => (t.phase, t.emitted, t.eventCount)) = some (9#4, [p1Reading], 1) := by
  decide +kernel
theorem test_step_advance :
    (nextOf (step { at' .advance 400 [] with cand := 168 })).map (fun t => (t.phase, t.cursor)) = some (2#4, 170) := by
  decide +kernel
theorem test_step_host_write :
    (nextOf (step (withPins State.reset (Pins.write 2 0xA9#8)))).map (·.buf) = some [(2, 0xA9#8)] := by decide +kernel
/-- After a reset the loaded byte waits to be written again; a host write is what it waits for. -/
theorem test_step_reset_then_write :
    (nextOf (step (withPins (at' .done 8 [0x12#8, 0x34#8]) { Pins.quiet with rst := true }))).map
      (fun t => (t.phase, t.buf, t.stale, (nextOf (step (withPins t (Pins.write 0 0x56#8)))).map (·.stale))) =
      some (0#4, bufOf [0x12#8, 0x34#8], [0, 1], some [1]) := by decide +kernel
theorem test_trace_scan :
    traceLine .scan (at' .scan 79 p1Inverted) = some (.scan 0 (.tooLate 0)) := by decide +kernel
theorem test_trace_mdec :
    traceLine .mdec (at' .mdec 159 p1Inverted) = some (.mdec 16 (.rejected 71 .shortRaw)) := by decide +kernel
/-- A reset in EMIT adds no record (log 19) and clears `rd_valid`. -/
theorem test_step_reset_in_emit :
    (nextOf (step (withPins { p1Emit with emitted := [p1Reading] } { Pins.quiet with rst := true }))).map
      (fun t => (t.emitted, t.rdValid, t.eventCount)) = some ([p1Reading], false, 0) := by decide +kernel
theorem test_hb_rdata : (withPins (at' .done 160 p1Inverted) (Pins.write 2 0#8)).outputs.hbRdata = 0xA9#8 := by
  decide +kernel

/-! ### States that meet the hypotheses of the statements, all of them together, clause by clause -/

theorem witness_ResetEdgeClearsEveryRegister : ∃ s : State, s.pins.rst = true ∧ s.phase ≠ encode .invert :=
  ⟨withPins p1Emit { Pins.quiet with rst := true }, rfl, by decide⟩

/-- A bit of the cut-off inversion, and the first one past its bytes. -/
theorem witness_ResetDuringInvertLeavesBitsUnspecified :
    ∃ (s : State) (i j : Nat), s.pins.rst = true ∧ s.phase = encode .invert ∧ i < s.nbits ∧ s.nbits ≤ 8 * (j / 8) :=
  ⟨withPins (at' .invert 3 [0xA0#8, 0x11#8]) { Pins.quiet with rst := true }, 2, 8, rfl, rfl, by decide, by decide⟩

theorem witness_IdleAndDoneWaitOrStart_wait : ∃ s : State, s.pins.start = false := ⟨State.reset, rfl⟩

/-- A START that fills the storage. -/
theorem witness_IdleAndDoneWaitOrStart_start :
    ∃ s : State, s.pins.start = true ∧ s.pins.nbitsIn ≤ s.nbitsMax ∧
      ∀ k < s.pins.nbitsIn, (Memory.bit? s.buf k).isSome = true ∧ k / 8 ∉ s.stale :=
  ⟨withPins (at' .done 0 p1Host) (Pins.startWith 160), rfl, by decide, by decide +kernel⟩

/-- One bit too long. -/
theorem witness_MalformedStartIsRefused_tooLong : ∃ s : State, s.pins.start = true ∧ s.nbitsMax < s.pins.nbitsIn :=
  ⟨withPins (at' .idle 0 p1Host) (Pins.startWith 161), rfl, by decide⟩

/-- One bit past the written ones. -/
theorem witness_MalformedStartIsRefused_unwritten :
    ∃ s : State, s.pins.start = true ∧ s.pins.nbitsIn ≤ s.nbitsMax ∧
      ∃ k < s.pins.nbitsIn, Memory.bit? s.buf k = none :=
  ⟨withPins (at' .idle 0 [0x12#8]) (Pins.startWith 9), rfl, by decide, 8, by decide, by decide⟩

/-- The last byte of the event still waits to be written since the last reset. -/
theorem witness_MalformedStartIsRefused_stale :
    ∃ s : State, s.pins.start = true ∧ s.pins.nbitsIn ≤ s.nbitsMax ∧
      ∃ k < s.pins.nbitsIn, k / 8 ∈ s.stale :=
  ⟨withPins { at' .idle 0 p1Host with stale := [19] } (Pins.startWith 153), rfl, by decide, 152, by decide, by decide⟩

/-- A written byte is given up by a reset, and a START of one bit follows. -/
theorem witness_ResetDemandsAReload :
    ∃ s t : State, s.pins.rst = true ∧ step s = .next t ∧ t.pins.rst = false ∧ t.pins.start = true ∧
      0 < t.pins.nbitsIn ∧ t.pins.nbitsIn ≤ t.nbitsMax :=
  let s : State := { at' .done 8 [0x12#8] with inputs := [{ Pins.quiet with rst := true }, Pins.startWith 1] }
  ⟨s, s.applyReset.endEdge, rfl, rfl, rfl, rfl, by decide, by decide⟩

theorem witness_InvertComplementsTheValidBits : ∃ s : State, s.readable ∧ s.nbits = 20 :=
  ⟨at' .invert 20 [0xA5#8, 0x3C#8, 0xF0#8], by decide +kernel, rfl⟩

theorem witness_SecondInversionRestoresTheBuffer : ∃ s : State, s.readable ∧ s.nbits = 1 :=
  ⟨at' .invert 1 [0x80#8], by decide +kernel, rfl⟩

/-- Exactly 80 bits are left. -/
theorem witness_ScanTakesTheLowestCandidate_tried :
    ∃ (s : State) (p : Nat), s.readable ∧ s.cursor ≤ p ∧ s.patternAt p ∧
      (∀ q, s.cursor ≤ q → q < p → ¬ s.patternAt q) ∧ p + 80 ≤ s.nbits :=
  ⟨at' .scan 80 p1Inverted, 0, by decide +kernel, by decide, by decide +kernel, fun _ _ h => absurd h (by omega), by decide⟩

/-- 79 bits are left. -/
theorem witness_ScanTakesTheLowestCandidate_finish :
    ∃ s : State, s.readable ∧ s.patternAt 0 ∧ ∀ p, s.cursor ≤ p → s.patternAt p → s.nbits < p + 80 :=
  ⟨at' .scan 79 p1Inverted, by decide +kernel, by decide +kernel, fun p _ _ => show 79 < p + 80 by omega⟩

/-- The window ends with the buffer. -/
theorem witness_MdecDecodesAFullWindow :
    ∃ (s : State) (w : Window), s.readable ∧ s.cand + 160 ≤ s.nbits ∧
      ∀ i < 72, s.pairCodes (s.cand + 16 + 2 * i) (w.getMsbD i) :=
  ⟨at' .mdec 160 p1Inverted, p1Win, by decide +kernel, by decide, by decide +kernel⟩

/-- Pair 71 is not wholly inside the buffer. -/
theorem witness_MdecRejectsAShortWindow_short :
    ∃ (s : State) (w : Window) (n : Nat), s.readable ∧ n < 72 ∧
      (∀ i < n, s.cand + 16 + 2 * i + 1 < s.nbits ∧ s.pairCodes (s.cand + 16 + 2 * i) (w.getMsbD i)) ∧
      (∀ i < 72, n ≤ i → w.getMsbD i = false) ∧ s.nbits ≤ s.cand + 16 + 2 * n + 1 :=
  ⟨at' .mdec 159 p1Inverted, p1Win &&& ~~~1#72, 71, by decide +kernel, by decide, by decide +kernel, by decide +kernel,
    by decide⟩

/-- Pair 0 has two equal bits. -/
theorem witness_MdecRejectsAShortWindow_violation :
    ∃ (s : State) (w : Window) (n : Nat), s.readable ∧ n < 72 ∧
      (∀ i < n, s.cand + 16 + 2 * i + 1 < s.nbits ∧ s.pairCodes (s.cand + 16 + 2 * i) (w.getMsbD i)) ∧
      (∀ i < 72, n ≤ i → w.getMsbD i = false) ∧
      Memory.bit? s.buf (s.cand + 16 + 2 * n) = Memory.bit? s.buf (s.cand + 16 + 2 * n + 1) :=
  ⟨at' .mdec 18 [0#8, 0#8, 0#8], 0#72, 0, by decide +kernel, by decide, by decide +kernel, by decide +kernel,
    by decide +kernel⟩

theorem witness_SyncchkComparesTheSyncWord :
    (∃ w w' : Window, w ≠ w' ∧ ∀ i < 16, windowBit w i = windowBit w' i) ∧ (∃ s : State, syncOk s.win = true) ∧
      ∃ s : State, syncOk s.win = false :=
  ⟨⟨p1Win, 0x19CF00000000000000#72, by decide +kernel⟩, ⟨p1Emit, by decide +kernel⟩, ⟨badSync, by decide +kernel⟩⟩

theorem witness_CrcchkTestsBytesTwoToEight :
    (∃ (s : State) (r : BitVec 16), r = crc16 (crcSpan s.win) ∧ r = 0#16) ∧
      ∃ (s : State) (r : BitVec 16), r = crc16 (crcSpan s.win) ∧ r ≠ 0#16 :=
  ⟨⟨p1Emit, 0#16, by decide +kernel⟩, ⟨badCrc, 0x8883#16, by decide +kernel⟩⟩

theorem witness_UnwrittenBitFaults : ∃ s : State, ∃ k < s.nbits, Memory.bit? s.buf k = none :=
  ⟨at' .scan 9 [0x12#8], 8, by decide, by decide⟩

theorem witness_StepRunsTheSelectedOperation :
    (∃ (s : State) (i : Instr), s.pins.rst = false ∧ decode s.phase = .ok i ∧ i.wf = true ∧ s.pins.hbWe = false) ∧
    (∃ (s : State) (i : Instr), s.pins.rst = false ∧ decode s.phase = .ok i ∧ i.wf = true ∧ s.busy = true) ∧
    ∃ (s : State) (i : Instr), s.pins.rst = false ∧ decode s.phase = .ok i ∧ i.wf = true ∧ s.pins.start = true :=
  ⟨⟨State.reset, .idle, rfl, rfl, rfl, rfl⟩, ⟨withPins p1Emit (Pins.write 0 1#8), .emit, rfl, rfl, rfl, rfl⟩,
    ⟨withPins (at' .done 0 []) (Pins.startWith 0), .done, rfl, rfl, rfl, rfl⟩⟩

/-- The last byte of the storage. -/
theorem witness_HostWriteLandsWhileNotBusy :
    ∃ s : State, s.pins.rst = false ∧ (s.phase = encode .idle ∨ s.phase = encode .done) ∧ Memory.wf s.buf ∧
      s.pins.start = false ∧ s.pins.hbWe = true ∧ s.pins.hbAddr < byteCount s.nbitsMax :=
  ⟨withPins (at' .idle 0 p1Host) (Pins.write 19 0x12#8), rfl, .inl rfl, by decide +kernel, rfl, rfl, by decide⟩

/-- The first address past the storage. -/
theorem witness_HostWriteOutsideTheStorageFaults :
    ∃ s : State, s.pins.rst = false ∧ (s.phase = encode .idle ∨ s.phase = encode .done) ∧ s.pins.start = false ∧
      s.pins.hbWe = true ∧ byteCount s.nbitsMax ≤ s.pins.hbAddr :=
  ⟨withPins (at' .done 0 []) (Pins.write 20 0x12#8), rfl, .inr rfl, rfl, rfl, by decide⟩

theorem witness_BusyBlockIgnoresTheHost :
    ∃ (s : State) (p p' : Pins), s.busy = true ∧ p.rst = false ∧ p'.rst = false ∧ p ≠ p' :=
  ⟨p1Emit, Pins.write 0 1#8, Pins.startWith 8, rfl, rfl, rfl, by decide⟩

theorem witness_ReservedSelectorIsStuck :
    (∃ s : State, 11#4 ≤ s.phase ∧ s.pins.rst = false ∧ s.phase = 11#4) ∧
      ∃ s : State, 11#4 ≤ s.phase ∧ s.pins.rst = false ∧ s.phase = 15#4 :=
  ⟨⟨{ State.reset with phase := 11#4 }, by decide, rfl, rfl⟩, ⟨{ State.reset with phase := 15#4 }, by decide, rfl, rfl⟩⟩

/-- The last position of a storage of 20 bits, in a byte that the storage fills only in part. -/
theorem witness_HostReadShowsTheByte_bit :
    ∃ (s : State) (k : Nat) (v : Bool), s.busy = false ∧ s.pins.hbAddr ∉ s.stale ∧ k < 8 ∧
      8 * s.pins.hbAddr + k + 1 = s.nbitsMax ∧ Memory.bit? s.buf (8 * s.pins.hbAddr + k) = some v :=
  ⟨{ withPins (at' .done 20 [0x11#8, 0x22#8, 0x30#8]) (Pins.write 2 0#8) with nbitsMax := 20 }, 3, true, rfl, by decide,
    by decide, rfl, by decide⟩

/-- The last byte whose eight positions exist. -/
theorem witness_HostReadShowsTheByte_byte :
    ∃ (s : State) (b : Byte), s.busy = false ∧ s.pins.hbAddr ∉ s.stale ∧ 8 * s.pins.hbAddr + 8 = s.nbitsMax ∧
      ∀ k < 8, Memory.bit? s.buf (8 * s.pins.hbAddr + k) = some (b.getLsbD (7 - k)) :=
  ⟨withPins (at' .done 160 p1Inverted) (Pins.write 19 0#8), 0x55#8, rfl, by decide, rfl, by decide +kernel⟩

theorem witness_SelectorRoundTrip : decode 10#4 = .ok .done ∧ decode 11#4 = .error (.reservedPhase 11#4) := ⟨rfl, rfl⟩

theorem p1Emit_inv : p1Emit.Inv := by
  refine ⟨?_, ?_, ?_, ?_, ?_, ?_⟩ <;> decide +kernel

theorem badCrc_inv : badCrc.Inv := by
  refine ⟨?_, ?_, ?_, ?_, ?_, ?_⟩ <;> decide +kernel

theorem badSync_inv : badSync.Inv := by
  refine ⟨?_, ?_, ?_, ?_, ?_, ?_⟩ <;> decide +kernel

theorem shortMdec_inv : (at' .mdec 159 p1Inverted).Inv := by
  refine ⟨?_, ?_, ?_, ?_, ?_, ?_⟩ <;> decide +kernel

theorem advance_inv : (at' .advance 160 p1Inverted).Inv := by
  refine ⟨?_, ?_, ?_, ?_, ?_, ?_⟩ <;> decide +kernel

theorem witness_EveryStepKeepsTheInvariant : ∃ s t : State, s.Inv ∧ step s = .next t :=
  ⟨p1Emit, (exists_next (by decide +kernel)).choose, p1Emit_inv, (exists_next (by decide +kernel)).choose_spec⟩

/-- SCAN with exactly 80 bits left behind the candidate, and the largest capacity whose width is 8. -/
theorem witness_PositionsNeverOverflow :
    (∃ (s : State) (buf : List Bool) (start p : Nat), s.Inv ∧ s.buffer? = some buf ∧ find buf start = some p) ∧
      ∃ n w : Nat, n + 160 < 2 ^ w ∧ Config.wPos n = w := by
  refine ⟨⟨at' .scan 80 p1Inverted, bitsOfBytes (p1Inverted.take 10), 0, 0, ⟨?_, ?_, ?_, ?_, ?_, ?_⟩, ?_, ?_⟩, 95, 8, ?_, ?_⟩ <;>
    decide +kernel

theorem witness_NoOperationCanStop_busy : ∃ s : State, s.Inv ∧ s.busy = true := ⟨p1Emit, p1Emit_inv, rfl⟩

theorem witness_NoOperationCanStop_reset : ∃ s : State, s.Inv ∧ s.pins.rst = true :=
  ⟨withPins p1Emit { Pins.quiet with rst := true }, p1Emit_inv, rfl⟩

/-- The longest START the storage admits, and the last byte it holds. -/
theorem witness_NoOperationCanStop_ports : ∃ s : State, s.Inv ∧ s.portsOk ∧ s.pins.start = true ∧ s.pins.hbWe = true := by
  refine ⟨withPins (at' .done 160 p1Inverted) { Pins.startWith 160 with hbWe := true, hbAddr := 19 },
    ⟨?_, ?_, ?_, ?_, ?_, ?_⟩, ⟨fun _ => ⟨?_, ?_⟩, fun _ => ?_⟩, rfl, rfl⟩ <;> decide +kernel

theorem witness_PhaseFollowsTheTransitionGraph :
    (∃ s t : State, step s = .next t ∧ s.pins.rst = false) ∧ ∃ s t : State, step s = .next t ∧ s.pins.rst = true :=
  ⟨⟨p1Emit, (exists_next (by decide +kernel)).choose, (exists_next (by decide +kernel)).choose_spec, rfl⟩,
    ⟨withPins p1Emit { Pins.quiet with rst := true }, (exists_next (by decide +kernel)).choose,
      (exists_next (by decide +kernel)).choose_spec, rfl⟩⟩

theorem witness_OnlyEmitReachesTheSink : ∃ s t : State, step s = .next t ∧ s.phase = encode .emit :=
  ⟨p1Emit, (exists_next (by decide +kernel)).choose, (exists_next (by decide +kernel)).choose_spec, rfl⟩

theorem witness_BufferIsChangedOnlyByItsOwner_busy :
    ∃ s t : State, s.pins.rst = false ∧ Memory.wf s.buf ∧ step s = .next t ∧ s.busy = true ∧ s.phase ≠ encode .invert :=
  ⟨badCrc, (exists_next (by decide +kernel)).choose, rfl, by decide +kernel,
    (exists_next (by decide +kernel)).choose_spec, rfl, by decide⟩

theorem witness_BufferIsChangedOnlyByItsOwner_host :
    (∃ s t : State, s.pins.rst = false ∧ Memory.wf s.buf ∧ step s = .next t ∧ s.busy = false ∧ s.pins.hbWe = false) ∧
    ∃ s t : State, s.pins.rst = false ∧ Memory.wf s.buf ∧ step s = .next t ∧ s.busy = false ∧ s.pins.hbWe = true :=
  ⟨⟨State.reset, (exists_next (by decide +kernel)).choose, rfl, by decide +kernel,
      (exists_next (by decide +kernel)).choose_spec, rfl, rfl⟩,
    ⟨withPins (at' .idle 0 p1Host) (Pins.write 19 0x12#8), (exists_next (by decide +kernel)).choose, rfl,
      by decide +kernel, (exists_next (by decide +kernel)).choose_spec, rfl, rfl⟩⟩

theorem witness_CursorOnlyGrowsInsideAnEvent :
    (∃ s t : State, s.Inv ∧ s.pins.rst = false ∧ step s = .next t ∧ s.busy = false ∧ s.pins.start = true) ∧
    (∃ s t : State, s.Inv ∧ s.pins.rst = false ∧ step s = .next t ∧ s.phase = encode .advance) ∧
    ∃ s t : State, s.Inv ∧ s.pins.rst = false ∧ step s = .next t ∧ s.busy = true :=
  ⟨⟨withPins State.reset (Pins.startWith 0), (exists_next (by decide +kernel)).choose, by
      refine ⟨?_, ?_, ?_, ?_, ?_, ?_⟩ <;> decide +kernel, rfl, (exists_next (by decide +kernel)).choose_spec, rfl, rfl⟩,
    ⟨at' .advance 160 p1Inverted, (exists_next (by decide +kernel)).choose, advance_inv, rfl,
      (exists_next (by decide +kernel)).choose_spec, rfl⟩,
    ⟨p1Emit, (exists_next (by decide +kernel)).choose, p1Emit_inv, rfl,
      (exists_next (by decide +kernel)).choose_spec, rfl⟩⟩

/-- A step that rejects, from a state whose step goes to ADVANCE. -/
theorem exists_reject {s : State} (h : (nextOf (step s)).map (·.phase) = some (encode .advance)) :
    ∃ t, step s = .next t ∧ t.phase = encode .advance := by
  cases ho : step s with
  | next t => rw [ho] at h; exact ⟨t, rfl, by simpa [nextOf] using h⟩
  | fault r => rw [ho] at h; cases h
  | refused r => rw [ho] at h; cases h

theorem witness_RejectionIsPrecise :
    ∃ s t : State, s.pins.rst = false ∧ s.phaseIn [.mdec, .syncchk, .crcchk] ∧ step s = .next t ∧
      t.phase = encode .advance := by
  obtain ⟨t, h⟩ := exists_reject (s := badCrc) (by decide +kernel)
  exact ⟨badCrc, t, rfl, by decide, h⟩

theorem witness_RejectionsKeepTheirPriority :
    (∃ s t : State, s.Inv ∧ s.pins.rst = false ∧ step s = .next t ∧ t.phase = encode .advance ∧
      s.phase = encode .crcchk) ∧
    (∃ s t : State, s.Inv ∧ s.pins.rst = false ∧ step s = .next t ∧ t.phase = encode .advance ∧
      s.phase = encode .syncchk) ∧
    ∃ s t : State, s.Inv ∧ s.pins.rst = false ∧ step s = .next t ∧ t.phase = encode .advance ∧
      s.phase = encode .mdec := by
  obtain ⟨t1, h1, h1'⟩ := exists_reject (s := badCrc) (by decide +kernel)
  obtain ⟨t2, h2, h2'⟩ := exists_reject (s := badSync) (by decide +kernel)
  obtain ⟨t3, h3, h3'⟩ := exists_reject (s := at' .mdec 159 p1Inverted) (by decide +kernel)
  exact ⟨⟨badCrc, t1, badCrc_inv, rfl, h1, h1', rfl⟩, ⟨badSync, t2, badSync_inv, rfl, h2, h2', rfl⟩,
    ⟨at' .mdec 159 p1Inverted, t3, shortMdec_inv, rfl, h3, h3', rfl⟩⟩

theorem witness_PadBitsAreNeverRead :
    ∃ (s : State) (m m' : Memory), m ≠ m' ∧ s.nbits = 1 ∧ ∀ k < s.nbits, Memory.bit? m k = Memory.bit? m' k :=
  ⟨at' .scan 1 [], bufOf [0x80#8], bufOf [0xBF#8], by decide +kernel, rfl, by decide +kernel⟩

theorem witness_PatternOverlapsItselfOnlyAtTwentyTwo :
    ∃ (buf : List Bool) (p k : Nat), matchesAt buf p = true ∧ 1 ≤ k ∧ k ≤ 23 ∧ k ≠ 22 :=
  ⟨patBitString, 0, 23, by decide +kernel, by decide, by decide, by decide⟩

theorem witness_DecoderInvertsTheEncoder : ∃ frame : List Byte, frame.length = 9 :=
  ⟨frameOf p1Plain, by decide +kernel⟩

/-- The first and the last raw bit of the window. -/
theorem witness_RawBitFlipStopsTheDecode :
    (∃ (buf : List Bool) (s q : Nat), (manchester buf s).1 = 72 ∧ s ≤ q ∧ q < s + 144 ∧ q = s) ∧
      ∃ (buf : List Bool) (s q : Nat), (manchester buf s).1 = 72 ∧ s ≤ q ∧ q < s + 144 ∧ q = s + 143 :=
  ⟨⟨bitsOfBytes p1Inverted, 16, 16, by decide +kernel, by decide, by decide, rfl⟩,
    ⟨bitsOfBytes p1Inverted, 16, 159, by decide +kernel, by decide, by decide, rfl⟩⟩

theorem witness_SingleBitFlipIsAlwaysRejected :
    (∃ (s : State) (k : Nat), crc16 (crcSpan s.win) = 0#16 ∧ 16 ≤ k ∧ k < 72 ∧ k = 16) ∧
      ∃ (s : State) (k : Nat), crc16 (crcSpan s.win) = 0#16 ∧ 16 ≤ k ∧ k < 72 ∧ k = 71 :=
  ⟨⟨p1Emit, 16, by decide +kernel, by decide, by decide, rfl⟩,
    ⟨p1Emit, 71, by decide +kernel, by decide, by decide, rfl⟩⟩

theorem witness_IdTextIsFourLowercaseHexCharacters : ∃ k : Nat, k < 4 := ⟨3, by decide⟩

theorem witness_ReservedAndIgnoredBits :
    (∃ (d : Payload) (b : Byte), b ≠ d.d0 ∧ ∀ k < 4, b.getLsbD k = d.d0.getLsbD k) ∧
      ∃ m : Byte, m ≠ 0#8 ∧ m &&& 0xFA#8 = 0#8 :=
  ⟨⟨p1Plain, 0xFA#8, by decide, by decide⟩, 0x05#8, by decide, by decide⟩

theorem witness_EventComputesProcessAndEnds :
    ∃ (s : State) (loaded : List Bool), s.busy = false ∧ s.pins.start = true ∧ (∀ p ∈ s.inputs, p.rst = false) ∧
      s.pins.nbitsIn ≤ s.nbitsMax ∧ Memory.readBits s.buf 0 s.pins.nbitsIn = some loaded ∧
      ∀ a ∈ s.stale, s.pins.nbitsIn ≤ 8 * a :=
  ⟨withPins { at' .done 0 p1Host with stale := [20] } (Pins.startWith 160), bitsOfBytes p1Host, rfl, rfl, by decide,
    by decide, by decide +kernel, by decide⟩

/-- The host asks for a second START and a write right after the first START. -/
theorem witness_TransmittedPacketIsReadOnce :
    ∃ (s : State) (r : Payload) (rest : List Pins), s.busy = false ∧ Memory.wf s.buf ∧ 160 ≤ s.nbitsMax ∧
      s.inputs = (eventOfInverted (transmission (frameOf (scramble r)))).pins ++ rest ∧ rest ≠ [] ∧
      ∀ p ∈ rest, p.rst = false :=
  ⟨{ at' .idle 0 [] with
      inputs := (eventOfInverted (transmission (frameOf (scramble p1Plain)))).pins ++
        [Pins.startWith 8, Pins.write 0 0xFF#8] },
    p1Plain, [Pins.startWith 8, Pins.write 0 0xFF#8], rfl, by decide, by decide, rfl, by decide, by decide⟩

/-- Program P1's function value (`95_test_vectors.md` section 3). -/
theorem test_process_P1 : process (bitsOfBytes p1Host) = ⟨[p1Reading], .none⟩ := by decide +kernel

end Sys2Proof.Tests
end

section
/-! PROOFS. The scan cursor (`10_state.md` rule R16): what each operation makes of it, that inside one event it only
grows, and that it stays below the width of a position. -/

namespace Sys2Proof.Machine

/-! ### What an operation makes of the cursor -/

/-- The cursor that operation `i` leaves behind (`10_state.md` rule R16): the waits clear it at a START, ADVANCE moves
it past the candidate, every other operation keeps it. -/
def State.cursorAfter (s : State) : Instr → Nat
  | .idle | .done => if s.pins.start then 0 else s.cursor
  | .advance => s.cand + 2
  | _ => s.cursor

theorem cursorAfter_eq_cursor (s : State) {i : Instr} (hi : i ≠ .idle) (hd : i ≠ .done) (ha : i ≠ .advance) :
    s.cursorAfter i = s.cursor := by
  cases i with
  | idle => exact absurd rfl hi
  | done => exact absurd rfl hd
  | advance => exact absurd rfl ha
  | invert | scan | mdec | syncchk | crcchk | descr | extract | emit => rfl

theorem cursorAfter_of_start {s : State} {i : Instr} (hi : i = .idle ∨ i = .done) (hs : s.pins.start = true) :
    s.cursorAfter i = 0 := by
  rcases hi with rfl | rfl <;> simp [State.cursorAfter, hs]

theorem awaitStart_cursor {s t : State} (h : awaitStart s = .next t) :
    t.cursor = (if s.pins.start then 0 else s.cursor) ∧ t.nbitsMax = s.nbitsMax := by
  obtain ⟨hs, rfl⟩ | ⟨hs, -, -, -, rfl⟩ := awaitStart_eq_next h
  · simp [hs]
  · simp [hs]

/-- The frame of every operation on the cursor and on the open parameter `NBITS_MAX`. -/
theorem exec_cursor {i : Instr} {s t : State} (h : exec i s = .next t) :
    t.cursor = s.cursorAfter i ∧ t.nbitsMax = s.nbitsMax := by
  cases i with
  | idle => exact awaitStart_cursor h
  | done => exact awaitStart_cursor h
  | invert =>
    obtain ⟨-, rfl⟩ := execInvert_eq_next h
    exact ⟨rfl, rfl⟩
  | scan =>
    obtain ⟨-, -, ⟨p, -, -, rfl⟩ | ⟨-, rfl⟩⟩ := execScan_eq_next h
    · exact ⟨rfl, rfl⟩
    · exact ⟨rfl, rfl⟩
  | mdec =>
    obtain ⟨-, -, ⟨-, rfl⟩ | ⟨-, c, rfl⟩⟩ := execMdec_eq_next h
    · exact ⟨rfl, rfl⟩
    · exact ⟨rfl, rfl⟩
  | syncchk =>
    obtain ⟨-, rfl⟩ | ⟨-, rfl⟩ := execSyncchk_eq_next h
    · exact ⟨rfl, rfl⟩
    · exact ⟨rfl, rfl⟩
  | crcchk =>
    obtain ⟨-, rfl⟩ | ⟨-, rfl⟩ := execCrcchk_eq_next h
    · exact ⟨rfl, rfl⟩
    · exact ⟨rfl, rfl⟩
  | descr =>
    obtain rfl := execDescr_eq_next h
    exact ⟨rfl, rfl⟩
  | extract =>
    obtain rfl := execExtract_eq_next h
    exact ⟨rfl, rfl⟩
  | emit =>
    obtain rfl := execEmit_eq_next h
    exact ⟨rfl, rfl⟩
  | advance =>
    obtain rfl := execAdvance_eq_next h
    exact ⟨rfl, rfl⟩

/-! ### What a step makes of it -/

/-- The host port touches nothing the cursor depends on. -/
theorem hostPort_cursorAfter {s u : State} (h : hostPort s = .next u) (i : Instr) :
    u.cursorAfter i = s.cursorAfter i ∧ u.nbitsMax = s.nbitsMax := by
  obtain rfl | ⟨-, -, -, -, rfl⟩ := hostPort_eq_next h
  · exact ⟨rfl, rfl⟩
  · cases i <;> exact ⟨rfl, rfl⟩

theorem step_cursor {s t : State} (hr : s.pins.rst = false) (h : step s = .next t) :
    ∃ i, s.phase = encode i ∧ t.cursor = s.cursorAfter i ∧ t.nbitsMax = s.nbitsMax := by
  obtain ⟨hr', -⟩ | ⟨-, i, u, v, hf, hu, hv, rfl⟩ := step_cases h
  · simp [hr] at hr'
  · obtain ⟨hvc, hvm⟩ := exec_cursor hv
    obtain ⟨huc, hum⟩ := hostPort_cursorAfter hu i
    exact ⟨i, fetch_eq_ok hf, hvc.trans huc, hvm.trans hum⟩

theorem wait_of_not_busy {s : State} {i : Instr} (hp : s.phase = encode i) (hb : s.busy = false) :
    i = .idle ∨ i = .done := by
  simpa [hp] using (busy_eq_false s).1 hb

theorem not_wait_of_busy {s : State} {i : Instr} (hp : s.phase = encode i) (hb : s.busy = true) :
    i ≠ .idle ∧ i ≠ .done := by
  have hw : ¬ (s.phase = encode .idle ∨ s.phase = encode .done) := by simp [← busy_eq_false, hb]
  simpa [hp] using hw

/-! ### What the invariant says of it -/

/-- Inside an attempt the candidate is not behind the cursor, and lies in the buffer (`41_preamble_scanner.md` rule
R91). -/
theorem State.Inv.cand_of_advance {s : State} (hI : s.Inv) (hp : s.phase = encode .advance) :
    s.cursor ≤ s.cand ∧ s.cand + 80 ≤ s.nbitsMax := by
  obtain ⟨-, -, ⟨hn, -⟩, ⟨-, -, hattempt⟩, -, -⟩ := hI
  obtain ⟨hle, hcand, -⟩ := hattempt (by simp [hp, attemptOps])
  exact ⟨hle, hcand.trans hn⟩

theorem State.Inv.cursor_le_nbitsMax {s : State} (hI : s.Inv) : s.cursor ≤ s.nbitsMax := by
  obtain ⟨-, -, ⟨hn, -⟩, ⟨hc, -, -⟩, -, -⟩ := hI
  omega

theorem State.Inv.cursorAfter_le_nbitsMax {s : State} {i : Instr} (hI : s.Inv) (hp : s.phase = encode i) :
    s.cursorAfter i ≤ s.nbitsMax := by
  have hc := hI.cursor_le_nbitsMax
  cases i with
  | advance =>
    obtain ⟨-, hcand⟩ := hI.cand_of_advance hp
    simp only [State.cursorAfter]
    omega
  | idle | done =>
    simp only [State.cursorAfter]
    split
    · exact Nat.zero_le _
    · exact hc
  | invert | scan | mdec | syncchk | crcchk | descr | extract | emit => exact hc

/-- While busy the cursor never falls: ADVANCE moves it past the candidate, every other operation keeps it. -/
theorem State.Inv.cursor_le_cursorAfter {s : State} {i : Instr} (hI : s.Inv) (hp : s.phase = encode i)
    (hb : s.busy = true) : s.cursor ≤ s.cursorAfter i := by
  by_cases ha : i = .advance
  · subst ha
    exact (hI.cand_of_advance hp).1.trans (Nat.le_add_right _ _)
  · obtain ⟨hi, hd⟩ := not_wait_of_busy hp hb
    exact (cursorAfter_eq_cursor s hi hd ha).ge

/-- `W_POS` bits hold every position up to `NBITS_MAX` (`10_state.md` rule R13). -/
theorem lt_two_pow_wPos {n m : Nat} (h : n ≤ m) : n < 2 ^ Config.wPos m :=
  calc n < m + 160 := by omega
    _ < 2 ^ Config.wPos m := Nat.lt_log2_self

/-- Settles O34: the step's operation fixes the cursor (`step_cursor`), and the invariant bounds it. -/
theorem cursorOnlyGrowsInsideAnEvent : Obligations.CursorOnlyGrowsInsideAnEvent := by
  unfold Obligations.CursorOnlyGrowsInsideAnEvent
  intro s t hI hr h
  obtain ⟨i, hp, hc, hm⟩ := step_cursor hr h
  refine ⟨fun hb hs => ?_, fun ha => ?_, fun hb => ?_, ?_⟩
  · exact hc.trans (cursorAfter_of_start (wait_of_not_busy hp hb) hs)
  · obtain rfl : i = .advance := encode_injective _ _ (hp.symm.trans ha)
    have hadv : t.cursor = s.cand + 2 := hc
    obtain ⟨hle, -⟩ := hI.cand_of_advance ha
    exact ⟨hadv, by omega⟩
  · exact hc ▸ hI.cursor_le_cursorAfter hp hb
  · rw [hm, hc]
    exact lt_two_pow_wPos (hI.cursorAfter_le_nbitsMax hp)

end Sys2Proof.Machine
end

section
/-! PROOFS. The transition graph of `phase` (`40_sequencer.md` rule R85): the edge each operation takes, and the
condition it takes it under. -/

namespace Sys2Proof.Machine

/-! ### The scanner's condition -/

/-- Rule R90's match in the valid bits is the pattern in the buffer. -/
theorem matchesAt_iff_patternAt {s : State} {buf : List Bool} (hb : s.buffer? = some buf) (p : Nat) :
    matchesAt buf p = true ↔ s.patternAt p := by
  obtain ⟨hlen, hbit⟩ := (Memory.readBits_eq_some _ _ _ _).1 hb
  have hread : ∀ i < s.nbits, Memory.bit? s.buf i = buf[i]? := by simpa using hbit
  constructor
  · intro hm
    have hle : p + 24 ≤ s.nbits := hlen ▸ matchesAt_le hm
    exact ⟨hle, fun k hk => (hread _ (by omega)).trans ((matchesAt_iff buf p).1 hm k hk)⟩
  · rintro ⟨hle, hpat⟩
    exact (matchesAt_iff buf p).2 fun k hk => (hread _ (by omega)).symm.trans (hpat k hk)

/-- A candidate at or after the cursor leaves `MIN_REMAIN` bits (`41_preamble_scanner.md` rule R91). -/
def State.HasCandidate (s : State) : Prop := ∃ p, s.cursor ≤ p ∧ s.patternAt p ∧ p + 80 ≤ s.nbits

theorem hasCandidate_of_find {s : State} {buf : List Bool} {p : Nat} (hb : s.buffer? = some buf)
    (hf : find buf s.cursor = some p) (hp : p + 80 ≤ s.nbits) : s.HasCandidate := by
  obtain ⟨hle, hm, -⟩ := (find_eq_some _ _ _).1 hf
  exact ⟨p, hle, (matchesAt_iff_patternAt hb p).1 hm, hp⟩

/-- `find` answers the lowest match, so when that one leaves too few bits every later one does. -/
theorem find_of_hasCandidate {s : State} {buf : List Bool} (hb : s.buffer? = some buf) (hc : s.HasCandidate) :
    ∃ p, find buf s.cursor = some p ∧ p + 80 ≤ s.nbits := by
  obtain ⟨q, hle, hpat, hq⟩ := hc
  have hm : matchesAt buf q = true := (matchesAt_iff_patternAt hb q).2 hpat
  cases hf : find buf s.cursor with
  | none => simp [(find_eq_none _ _).1 hf q hle] at hm
  | some p =>
    obtain ⟨-, -, hlow⟩ := (find_eq_some _ _ _).1 hf
    have hpq : p ≤ q := by
      by_contra hlt
      simp [hlow q hle (by omega)] at hm
    exact ⟨p, rfl, by omega⟩

/-! ### The edge each operation takes -/

/-- What rule R85 asks of a step from `s` to `t` along the edge from `i` to `j`, where `i` has two edges to choose
from. -/
def State.EdgeCondition (s t : State) (i j : Instr) : Prop :=
  match i with
  | .idle | .done => j = .invert ↔ s.pins.start = true
  | .scan => j = .mdec ↔ s.HasCandidate
  | .mdec => j = .syncchk ↔ t.winLen = 72
  | .syncchk => j = .crcchk ↔ syncOk s.win = true
  | .crcchk => j = .descr ↔ t.crc = 0#16
  | .invert | .descr | .extract | .emit | .advance => True

/-- `t` is where rule R85 lets `phase` go from operation `i` in the state `s`. -/
def State.TakesEdge (s t : State) (i : Instr) : Prop :=
  ∃ j, (i, j) ∈ phaseGraph ∧ t.phase = encode j ∧ s.EdgeCondition t i j

theorem awaitStart_takesEdge {s t : State} {i : Instr} (hi : i = .idle ∨ i = .done) (hp : s.phase = encode i)
    (h : awaitStart s = .next t) : s.TakesEdge t i := by
  obtain ⟨hs, rfl⟩ | ⟨hs, -, -, -, rfl⟩ := awaitStart_eq_next h
  · exact ⟨i, by rcases hi with rfl | rfl <;> decide, hp,
      by rcases hi with rfl | rfl <;> simp [State.EdgeCondition, hs]⟩
  · exact ⟨.invert, by rcases hi with rfl | rfl <;> decide, rfl,
      by rcases hi with rfl | rfl <;> simp [State.EdgeCondition, hs]⟩

theorem execScan_takesEdge {s t : State} (h : execScan s = .next t) : s.TakesEdge t .scan := by
  obtain ⟨buf, hb, ⟨p, hf, hp, rfl⟩ | ⟨hshort, rfl⟩⟩ := execScan_eq_next h
  · exact ⟨.mdec, by decide, rfl, iff_of_true rfl (hasCandidate_of_find hb hf hp)⟩
  · refine ⟨.done, by decide, rfl, iff_of_false (by decide) fun hc => ?_⟩
    obtain ⟨p, hf, hp⟩ := find_of_hasCandidate hb hc
    exact absurd hp (hshort p hf).not_ge

theorem execMdec_takesEdge {s t : State} (h : execMdec s = .next t) : s.TakesEdge t .mdec := by
  obtain ⟨buf, -, ⟨-, rfl⟩ | ⟨hlt, c, rfl⟩⟩ := execMdec_eq_next h
  · exact ⟨.syncchk, by decide, rfl, iff_of_true rfl rfl⟩
  · exact ⟨.advance, by decide, rfl, iff_of_false (by decide) hlt.ne⟩

theorem execSyncchk_takesEdge {s t : State} (h : execSyncchk s = .next t) : s.TakesEdge t .syncchk := by
  obtain ⟨hs, rfl⟩ | ⟨hs, rfl⟩ := execSyncchk_eq_next h
  · exact ⟨.crcchk, by decide, rfl, iff_of_true rfl hs⟩
  · exact ⟨.advance, by decide, rfl, iff_of_false (by decide) (by simp [hs])⟩

theorem execCrcchk_takesEdge {s t : State} (h : execCrcchk s = .next t) : s.TakesEdge t .crcchk := by
  obtain ⟨-, rfl⟩ | ⟨hc, rfl⟩ := execCrcchk_eq_next h
  · exact ⟨.descr, by decide, rfl, iff_of_true rfl rfl⟩
  · exact ⟨.advance, by decide, rfl, iff_of_false (by decide) hc⟩

theorem exec_takesEdge {s t : State} {i : Instr} (hp : s.phase = encode i) (h : exec i s = .next t) :
    s.TakesEdge t i := by
  cases i with
  | idle => exact awaitStart_takesEdge (.inl rfl) hp h
  | done => exact awaitStart_takesEdge (.inr rfl) hp h
  | invert =>
    obtain ⟨-, rfl⟩ := execInvert_eq_next h
    exact ⟨.scan, by decide, rfl, trivial⟩
  | scan => exact execScan_takesEdge h
  | mdec => exact execMdec_takesEdge h
  | syncchk => exact execSyncchk_takesEdge h
  | crcchk => exact execCrcchk_takesEdge h
  | descr =>
    obtain rfl := execDescr_eq_next h
    exact ⟨.extract, by decide, rfl, trivial⟩
  | extract =>
    obtain rfl := execExtract_eq_next h
    exact ⟨.emit, by decide, rfl, trivial⟩
  | emit =>
    obtain rfl := execEmit_eq_next h
    exact ⟨.advance, by decide, rfl, trivial⟩
  | advance =>
    obtain rfl := execAdvance_eq_next h
    exact ⟨.scan, by decide, rfl, trivial⟩

/-! ### The edge a step takes -/

/-- The host port keeps the selector, and what it may write no condition of the selected operation reads: it writes
only in the waits, which look at `start` alone. -/
theorem hostPort_takesEdge {s u t : State} {i : Instr} (hp : s.phase = encode i) (h : hostPort s = .next u)
    (hu : u.phase = encode i → u.TakesEdge t i) : s.TakesEdge t i := by
  obtain rfl | ⟨-, hb, -, -, rfl⟩ := hostPort_eq_next h
  · exact hu hp
  · obtain rfl | rfl := wait_of_not_busy hp hb
    · exact hu hp
    · exact hu hp

/-- The passing of the edge keeps the registers the conditions look at. -/
theorem State.TakesEdge.endEdge {s t : State} {i : Instr} (h : s.TakesEdge t i) : s.TakesEdge t.endEdge i := by
  obtain ⟨j, hij, hq, hc⟩ := h
  exact ⟨j, hij, hq, by cases i <;> exact hc⟩

theorem step_takesEdge {s t : State} (hr : s.pins.rst = false) (h : step s = .next t) :
    ∃ i, s.phase = encode i ∧ s.TakesEdge t i := by
  obtain ⟨hr', -⟩ | ⟨-, i, u, v, hf, hu, hv, rfl⟩ := step_cases h
  · simp [hr] at hr'
  · have hp : s.phase = encode i := fetch_eq_ok hf
    exact ⟨i, hp, hostPort_takesEdge hp hu fun hpu => (exec_takesEdge hpu hv).endEdge⟩

theorem step_phase_of_reset {s t : State} (hr : s.pins.rst = true) (h : step s = .next t) :
    t.phase = encode .idle := by
  obtain ⟨-, rfl⟩ | ⟨hr', -⟩ := step_cases h
  · rfl
  · simp [hr] at hr'

/-- Settles O31: the selected operation takes an edge of the graph under its condition (`step_takesEdge`). -/
theorem phaseFollowsTheTransitionGraph : Obligations.PhaseFollowsTheTransitionGraph := by
  unfold Obligations.PhaseFollowsTheTransitionGraph
  intro s t h
  refine ⟨fun hr => step_phase_of_reset hr h, fun hr => ?_⟩
  obtain ⟨i, hp, j, hij, hq, hc⟩ := step_takesEdge hr h
  refine ⟨i, j, hij, hp, hq, ?_, ?_, ?_, ?_, ?_⟩
  · rintro (rfl | rfl)
    · exact hc
    · exact hc
  all_goals
    rintro rfl
    exact hc

end Sys2Proof.Machine
end

section
/-! PROOFS. The sync validator (`43_sync_validator.md`): the sync test in its three forms, and what SYNCCHK makes of
its result. -/

namespace Sys2Proof.Machine

/-! ### Two neighbouring window bytes as one number -/

/-- Two big-endian pairs agree exactly when their parts do (`20_memory.md` rule R43). -/
theorem append_eq_append_iff {m n : Nat} (a c : BitVec m) (b d : BitVec n) :
    a ++ b = c ++ d ↔ a = c ∧ b = d := by
  refine ⟨fun h => ⟨?_, ?_⟩, fun ⟨hac, hbd⟩ => hac ▸ hbd ▸ rfl⟩
  · rw [← BitVec.extractLsb'_append_eq_left (a := a) (b := b), h, BitVec.extractLsb'_append_eq_left]
  · rw [← BitVec.setWidth_append_eq_right (a := a) (b := b), h, BitVec.setWidth_append_eq_right]

/-- `byteBit_windowByte` with the places of the byte counted from its top bit. -/
theorem getMsbD_windowByte (w : Window) (j k : Nat) (hj : j < 9) (hk : k < 8) :
    (windowByte w j).getMsbD k = windowBit w (8 * j + k) := by
  rw [← byteBit_windowByte w j k hj hk, byteBit, BitVec.getMsbD_eq_getLsbD]
  simp [hk]

theorem getMsbD_windowByte_append (w : Window) (j i : Nat) (hj : j + 1 < 9) (hi : i < 16) :
    (windowByte w j ++ windowByte w (j + 1)).getMsbD i = windowBit w (8 * j + i) := by
  rw [BitVec.getMsbD_append]
  split
  · next hlow =>
    rw [getMsbD_windowByte w (j + 1) (i - 8) hj (by omega)]
    congr 1
    omega
  · next hhigh => exact getMsbD_windowByte w j i (by omega) (by omega)

theorem getMsbD_syncField (w : Window) {i : Nat} (hi : i < 16) : (syncField w).getMsbD i = windowBit w i := by
  simpa [syncField] using getMsbD_windowByte_append w 0 i (by decide) hi

/-! ### The sync test, rule R110 -/

theorem syncOk_iff_syncField (w : Window) : syncOk w = true ↔ syncField w = Config.sync := by
  simp [syncOk]

theorem syncOk_iff_bytes (w : Window) :
    syncOk w = true ↔ windowByte w 0 = 0x19#8 ∧ windowByte w 1 = 0xCF#8 := by
  have hsync : Config.sync = 0x19#8 ++ 0xCF#8 := by decide
  rw [syncOk_iff_syncField, hsync]
  exact append_eq_append_iff _ _ _ _

theorem syncOk_iff_windowBit (w : Window) :
    syncOk w = true ↔ ∀ i < 16, windowBit w i = Config.sync.getMsbD i := by
  rw [syncOk_iff_syncField]
  constructor
  · intro h i hi
    rw [← getMsbD_syncField w hi, h]
  · intro h
    exact BitVec.eq_of_getMsbD_eq fun i hi => (getMsbD_syncField w hi).trans (h i hi)

/-- The sync word bit by bit, in the order the window receives it. -/
theorem sync_bits : (List.range 16).map Config.sync.getMsbD =
    [false, false, false, true, true, false, false, true, true, true, false, false, true, true, true, true] := by
  decide

theorem syncOk_iff_bitString (w : Window) :
    syncOk w = true ↔ (List.range 16).map (windowBit w) =
      [false, false, false, true, true, false, false, true, true, true, false, false, true, true, true, true] := by
  rw [syncOk_iff_windowBit, ← sync_bits, List.map_inj_left]
  simp only [List.mem_range]

/-- The sync test is a function of `w[0..15]` alone. -/
theorem syncOk_congr {w w' : Window} (h : ∀ i < 16, windowBit w i = windowBit w' i) : syncOk w = syncOk w' := by
  rw [Bool.eq_iff_iff, syncOk_iff_windowBit, syncOk_iff_windowBit]
  exact forall₂_congr fun i hi => by rw [h i hi]

/-! ### SYNCCHK, rule R111 -/

theorem exec_syncchk_of_syncOk {s : State} (h : syncOk s.win = true) :
    exec .syncchk s = .next (s.goto .crcchk) := by
  simp [exec, execSyncchk, h]

theorem exec_syncchk_of_not_syncOk {s : State} (h : syncOk s.win = false) :
    exec .syncchk s = .next (s.raise (.sanityFail .sync)) := by
  simp [exec, execSyncchk, h]

/-- Settles O11: the three forms compare the sync word by bytes, as one number and bit by bit, and each result of the
test selects one branch of SYNCCHK. -/
theorem syncchkComparesTheSyncWord : Obligations.SyncchkComparesTheSyncWord := by
  unfold Obligations.SyncchkComparesTheSyncWord
  refine ⟨fun w => ⟨syncOk_iff_bytes w, syncOk_iff_syncField w, syncOk_iff_bitString w⟩, fun _ _ => syncOk_congr,
    fun s => ⟨fun h => ?_, fun h => ?_⟩⟩
  · exact exec_syncchk_of_syncOk h
  · exact exec_syncchk_of_not_syncOk h

end Sys2Proof.Machine
end

section
/-! PROOFS. The integrity checker (`44_integrity_checker.md`): the span of the CRC, CRCCHK by the value of the CRC, and
the CRC of constant byte strings. -/

namespace Sys2Proof.Machine

/-- The span byte by byte, in the order the CRC takes it. -/
theorem crcSpan_eq (w : Window) :
    crcSpan w = [windowByte w 2, windowByte w 3, windowByte w 4, windowByte w 5, windowByte w 6, windowByte w 7,
      windowByte w 8] := rfl

/-! ### CRCCHK, rule R116 -/

theorem exec_crcchk_of_crc_eq_zero {s : State} (h : crc16 (crcSpan s.win) = 0#16) :
    exec .crcchk s = .next ({ s with crc := 0#16 }.goto .descr) := by
  simp [exec, execCrcchk, h]

theorem exec_crcchk_of_crc_ne_zero {s : State} (h : crc16 (crcSpan s.win) ≠ 0#16) :
    exec .crcchk s =
      .next ({ s with crc := crc16 (crcSpan s.win) }.raise (.integrityFail (crc16 (crcSpan s.win)))) := by
  simp [exec, execCrcchk, h]

/-! ### Corner cases (a) and (b) -/

/-- A zero byte leaves the zero register at zero: nothing enters, and no shift drops a one. -/
theorem crcByte_zero_zero : crcByte 0#16 0x00#8 = 0#16 := by decide

/-- The CRC starts at zero, so zero bytes never move it, however many. -/
theorem crc16_replicate_zero (n : Nat) : crc16 (List.replicate n 0x00#8) = 0#16 := by
  induction n with
  | zero => rfl
  | succ n ih =>
    calc crc16 (List.replicate (n + 1) 0x00#8)
        = (List.replicate n 0x00#8).foldl crcByte (crcByte 0#16 0x00#8) := rfl
      _ = crc16 (List.replicate n 0x00#8) := by rw [crcByte_zero_zero]; rfl
      _ = 0#16 := ih

theorem crc16_replicate_seven_allOnes : crc16 (List.replicate 7 0xFF#8) = 0x7001#16 := by decide +kernel

/-- Settles O12: the CRC of the span selects the branch of CRCCHK. -/
theorem crcchkTestsBytesTwoToEight : Obligations.CrcchkTestsBytesTwoToEight := by
  unfold Obligations.CrcchkTestsBytesTwoToEight
  refine ⟨fun s r hr => ?_, crc16_replicate_zero 7, crc16_replicate_seven_allOnes⟩
  rw [← crcSpan_eq] at hr
  subst hr
  refine ⟨fun hzero => ?_, fun hne => ?_⟩
  · exact exec_crcchk_of_crc_eq_zero hzero
  · exact exec_crcchk_of_crc_ne_zero hne

end Sys2Proof.Machine
end

section
/-! PROOFS. The descrambler (`45_descrambler.md`): the payload bytes DESCR takes from the window, and its next state. -/

namespace Sys2Proof.Machine

/-- The scrambled payload byte by byte, in the order the cascade takes it. -/
theorem scrambledPayload_eq (w : Window) :
    scrambledPayload w = ⟨windowByte w 2, windowByte w 3, windowByte w 4, windowByte w 5, windowByte w 6⟩ := rfl

/-! ### DESCR, rule R126 -/

theorem exec_descr (s : State) :
    exec .descr s = .next ({ s with d := descramble (scrambledPayload s.win) }.goto .extract) := rfl

theorem goto_extract_eq (s : State) : s.goto .extract = { s with phase := 7#4 } := rfl

/-- Settles O13: DESCR has one branch, which writes `d` from the window and goes to phase 7, EXTRACT. -/
theorem descrDescramblesTheWindow : Obligations.DescrDescramblesTheWindow := by
  unfold Obligations.DescrDescramblesTheWindow
  intro s
  rw [exec_descr, goto_extract_eq, scrambledPayload_eq]

end Sys2Proof.Machine
end

section
/-! PROOFS. The field extractor (`46_field_extractor.md`): the six fields bit by bit and as numbers, what the byte
`d[0]` reaches, and EXTRACT's next state. -/

namespace Sys2Proof.Machine

/-! ### Masks and neighbouring bytes as numbers -/

/-- A bit that a mask selects is clear when the masked word is zero. -/
theorem getLsbD_eq_false_of_and_eq_zero {w i : Nat} {x mask : BitVec w} (h : x &&& mask = 0#w)
    (hi : mask.getLsbD i = true) : x.getLsbD i = false := by
  have hbit : (x &&& mask).getLsbD i = false := by rw [h, BitVec.getLsbD_zero]
  simpa [hi] using hbit

/-- A one-bit mask tests its bit. -/
theorem and_twoPow_eq_zero_iff {w i : Nat} (x : BitVec w) (hi : i < w) :
    x &&& BitVec.twoPow w i = 0#w ↔ x.getLsbD i = false := by
  constructor
  · intro h
    exact getLsbD_eq_false_of_and_eq_zero h (by simp [hi])
  · intro h
    simp [BitVec.and_twoPow, h]

/-- A big-endian pair as a number. -/
theorem append_eq_ofNat {m n : Nat} (a : BitVec m) (b : BitVec n) :
    a ++ b = BitVec.ofNat (m + n) (a.toNat * 2 ^ n + b.toNat) := by
  have hnum : (a ++ b).toNat = a.toNat * 2 ^ n + b.toNat := by
    rw [BitVec.toNat_append, ← Nat.shiftLeft_add_eq_or_of_lt b.isLt, Nat.shiftLeft_eq]
  rw [← hnum, BitVec.ofNat_toNat, BitVec.setWidth_eq]

/-! ### The fields of a reading, rule R135 -/

@[simp] theorem extractFields_id (d : Payload) : (extractFields d).id = d.d1 ++ d.d4 := rfl
@[simp] theorem extractFields_flags (d : Payload) : (extractFields d).flags = d.d0.extractLsb' 0 4 := rfl
@[simp] theorem extractFields_pressureQ6 (d : Payload) : (extractFields d).pressureQ6 = d.d3 := rfl
@[simp] theorem extractFields_tempC (d : Payload) :
    (extractFields d).tempC = d.d2.zeroExtend 9 - Config.tempOffset := rfl

theorem getLsbD_extractFields_flags (d : Payload) {k : Nat} (hk : k < 4) :
    (extractFields d).flags.getLsbD k = d.d0.getLsbD k := by
  simp [hk]

theorem extractFields_batteryLow_eq_flags (d : Payload) :
    (extractFields d).batteryLow = !(extractFields d).flags.getLsbD 1 := rfl

theorem extractFields_pressureLossAlarm_eq_flags (d : Payload) :
    (extractFields d).pressureLossAlarm = !(extractFields d).flags.getLsbD 3 := rfl

@[simp] theorem extractFields_batteryLow (d : Payload) : (extractFields d).batteryLow = !d.d0.getLsbD 1 := by
  rw [extractFields_batteryLow_eq_flags, getLsbD_extractFields_flags d (by decide)]

@[simp] theorem extractFields_pressureLossAlarm (d : Payload) :
    (extractFields d).pressureLossAlarm = !d.d0.getLsbD 3 := by
  rw [extractFields_pressureLossAlarm_eq_flags, getLsbD_extractFields_flags d (by decide)]

/-! ### The fields as numbers -/

theorem extractFields_id_eq_ofNat (d : Payload) :
    (extractFields d).id = BitVec.ofNat 16 (d.d1.toNat * 256 + d.d4.toNat) :=
  (extractFields_id d).trans (append_eq_ofNat d.d1 d.d4)

theorem extractFields_flags_eq_ofNat (d : Payload) : (extractFields d).flags = BitVec.ofNat 4 (d.d0.toNat % 16) := by
  apply BitVec.eq_of_toNat_eq
  simp

theorem extractFields_batteryLow_eq_mask (d : Payload) :
    (extractFields d).batteryLow = decide (d.d0 &&& 0x02#8 = 0#8) := by
  have hmask : 0x02#8 = BitVec.twoPow 8 1 := by decide
  rw [extractFields_batteryLow, hmask, Bool.eq_iff_iff, decide_eq_true_iff, and_twoPow_eq_zero_iff _ (by decide),
    Bool.not_eq_true']

theorem extractFields_pressureLossAlarm_eq_mask (d : Payload) :
    (extractFields d).pressureLossAlarm = decide (d.d0 &&& 0x08#8 = 0#8) := by
  have hmask : 0x08#8 = BitVec.twoPow 8 3 := by decide
  rw [extractFields_pressureLossAlarm, hmask, Bool.eq_iff_iff, decide_eq_true_iff,
    and_twoPow_eq_zero_iff _ (by decide), Bool.not_eq_true']

/-- The 9-bit subtraction is the integer subtraction in two's complement, rule R139. -/
theorem extractFields_tempC_eq_ofInt (d : Payload) :
    (extractFields d).tempC = BitVec.ofInt 9 ((d.d2.toNat : Int) - 55) := by
  have hoffset : BitVec.ofInt 9 (-55) = -Config.tempOffset := by decide
  rw [extractFields_tempC, Int.sub_eq_add_neg, BitVec.ofInt_add, BitVec.ofInt_natCast, BitVec.ofNat_toNat, hoffset,
    ← BitVec.sub_eq_add_neg]

theorem extractFields_eq_numbers (d : Payload) : extractFields d =
    { id := BitVec.ofNat 16 (d.d1.toNat * 256 + d.d4.toNat)
      flags := BitVec.ofNat 4 (d.d0.toNat % 16)
      batteryLow := decide (d.d0 &&& 0x02#8 = 0#8)
      pressureQ6 := d.d3
      pressureLossAlarm := decide (d.d0 &&& 0x08#8 = 0#8)
      tempC := BitVec.ofInt 9 ((d.d2.toNat : Int) - 55) } := by
  rw [← extractFields_id_eq_ofNat, ← extractFields_flags_eq_ofNat, ← extractFields_batteryLow_eq_mask,
    ← extractFields_pressureLossAlarm_eq_mask, ← extractFields_tempC_eq_ofInt, ← extractFields_pressureQ6]

/-! ### What `d[0]` reaches -/

/-- `d[0]` reaches the flags, and beside them only the two booleans, each by its own bit. -/
theorem extractFields_with_d0 (d : Payload) (b : Byte) : extractFields { d with d0 := b } =
    { extractFields d with
      flags := b.extractLsb' 0 4
      batteryLow := !b.getLsbD 1
      pressureLossAlarm := !b.getLsbD 3 } := by
  rw [← extractFields_batteryLow { d with d0 := b }, ← extractFields_pressureLossAlarm { d with d0 := b }]
  rfl

theorem extractFields_with_d0_of_low_nibble {d : Payload} {b : Byte} (h : ∀ k < 4, b.getLsbD k = d.d0.getLsbD k) :
    extractFields { d with d0 := b } = extractFields d := by
  have hnibble : b.extractLsb' 0 4 = d.d0.extractLsb' 0 4 := BitVec.eq_of_getLsbD_eq fun k hk => by simp [hk, h k hk]
  calc extractFields { d with d0 := b }
      = extractFields { d with d0 := d.d0 } := by
        rw [extractFields_with_d0 d b, extractFields_with_d0 d d.d0, hnibble, h 1 (by decide), h 3 (by decide)]
    _ = extractFields d := rfl

/-- Apart from the flags, a reading sees bits 1 and 3 of `d[0]` only. -/
theorem extractFields_with_d0_of_tested_bits {d : Payload} {b : Byte} (h1 : b.getLsbD 1 = d.d0.getLsbD 1)
    (h3 : b.getLsbD 3 = d.d0.getLsbD 3) (f : BitVec 4) :
    { extractFields { d with d0 := b } with flags := f } = { extractFields d with flags := f } := by
  rw [extractFields_with_d0, h1, h3, ← extractFields_batteryLow, ← extractFields_pressureLossAlarm]

/-! ### EXTRACT, rule R136 -/

theorem exec_extract (s : State) : exec .extract s = .next ({ s with rd := extractFields s.d }.goto .emit) := rfl

theorem goto_emit_eq (s : State) : s.goto .emit = { s with phase := 8#4 } := rfl

/-- Settles O14: EXTRACT has one branch, which writes the six fields of `d` and goes to phase 8, EMIT. -/
theorem extractComputesTheSixFields : Obligations.ExtractComputesTheSixFields := by
  unfold Obligations.ExtractComputesTheSixFields
  intro s
  rw [exec_extract, goto_emit_eq, extractFields_eq_numbers]

/-- Settles O49: the next state's `rd` is `extractFields`, whose booleans are the complements of flags 1 and 3. -/
theorem flagPolarities : Obligations.FlagPolarities := by
  unfold Obligations.FlagPolarities
  intro s
  refine ⟨_, exec_extract s, fun k hk => ?_, ?_, ?_⟩
  · exact getLsbD_extractFields_flags s.d hk
  · rw [State.goto_rd, extractFields_batteryLow_eq_flags, Bool.not_eq_true']
  · rw [State.goto_rd, extractFields_pressureLossAlarm_eq_flags, Bool.not_eq_true']

/-- Settles O51: only the low nibble of `d[0]` reaches a reading, and beside the flags only its bits 1 and 3, which a
change within bits 0 and 2 leaves alone. -/
theorem reservedAndIgnoredBits : Obligations.ReservedAndIgnoredBits := by
  unfold Obligations.ReservedAndIgnoredBits
  refine ⟨fun d b h => ?_, fun d => ⟨?_, ?_⟩, fun d m hm => ?_⟩
  · exact extractFields_with_d0_of_low_nibble h
  · exact getLsbD_extractFields_flags d (by decide)
  · exact getLsbD_extractFields_flags d (by decide)
  · have hm1 : m.getLsbD 1 = false := getLsbD_eq_false_of_and_eq_zero hm (by decide)
    have hm3 : m.getLsbD 3 = false := getLsbD_eq_false_of_and_eq_zero hm (by decide)
    refine extractFields_with_d0_of_tested_bits ?_ ?_ 0#4
    · rw [BitVec.getLsbD_xor, hm1, Bool.xor_false]
    · rw [BitVec.getLsbD_xor, hm3, Bool.xor_false]

end Sys2Proof.Machine
end

section
/-! PROOFS. The selector (`30_encoding.md` section 2), reset (`70_reset_and_hazards.md` section 1) and what IDLE and
DONE do (`40_sequencer.md` sections 1 and 4). -/

namespace Sys2Proof.Machine

/-! ### The selector -/

theorem decode_encode (i : Instr) : decode (encode i) = .ok i := by cases i <;> rfl

theorem encode_of_decode {p : Phase} {i : Instr} (h : decode p = .ok i) : encode i = p :=
  (fetch_eq_ok (s := { State.reset with phase := p }) h).symm

theorem fetch_of_phase {s : State} {i : Instr} (h : s.phase = encode i) : fetch s = .ok i := by
  rw [fetch, h, decode_encode]

theorem decode_reserved_iff (p : Phase) : decode p = .error (.reservedPhase p) ↔ 11#4 ≤ p := by
  revert p; decide

/-- Settles O25: each of the eight words looked up in the operation map. -/
theorem selectorValuesOfTheTable : Obligations.SelectorValuesOfTheTable := by
  unfold Obligations.SelectorValuesOfTheTable
  exact ⟨rfl, rfl, rfl, rfl, rfl, rfl, rfl, rfl⟩

/-- Settles O26: `decode` and `encode` undo each other, and the 16 values of the selector show where `decode`
rejects. -/
theorem selectorRoundTrip : Obligations.SelectorRoundTrip := by
  unfold Obligations.SelectorRoundTrip
  exact ⟨fun i _ => decode_encode i, fun _ _ => encode_of_decode, decode_reserved_iff⟩

/-! ### The step, by what its edge brings -/

theorem step_of_reset {s : State} (hr : s.pins.rst = true) : step s = .next s.applyReset.endEdge := by
  simp [step, hr]

/-- Without reset the host port acts, then the selected operation. -/
theorem step_of_phase {s : State} {i : Instr} (hr : s.pins.rst = false) (hp : s.phase = encode i) :
    step s = andThen (hostPort s) fun u => andThen (exec i u) fun t => .next t.endEdge := by
  simp [step, hr, fetch_of_phase hp]

theorem step_of_hostPort {s u : State} {i : Instr} (hr : s.pins.rst = false) (hp : s.phase = encode i)
    (hu : hostPort s = .next u) : step s = andThen (exec i u) fun t => .next t.endEdge := by
  rw [step_of_phase hr hp, hu, andThen_next]

/-- The host port leaves the state alone unless a write is honoured (`10_state.md` rule R20). -/
theorem hostPort_of_no_honoured_write {s : State}
    (h : s.pins.hbWe = false ∨ s.busy = true ∨ s.pins.start = true) : hostPort s = .next s := by
  obtain hw | hb | hs := h
  · exact hostPort_of_no_write hw
  · exact hostPort_of_busy hb
  · exact hostPort_of_start hs

/-- Settles O18: with no honoured write the host port drops out of the step. -/
theorem stepRunsTheSelectedOperation : Obligations.StepRunsTheSelectedOperation := by
  unfold Obligations.StepRunsTheSelectedOperation
  intro s i hr hd _ hw
  exact step_of_hostPort hr (encode_of_decode hd).symm (hostPort_of_no_honoured_write hw)

/-- Settles O22: a reserved selector value decodes to no operation. -/
theorem reservedSelectorIsStuck : Obligations.ReservedSelectorIsStuck := by
  unfold Obligations.ReservedSelectorIsStuck
  intro s hp hr
  have hf : fetch s = .error (.reservedPhase s.phase) := (decode_reserved_iff s.phase).2 hp
  simp [step, hr, hf]

/-! ### START and the waits -/

/-- What a START needs, bit by bit (`10_state.md` rule R25 (b); log 18). -/
def State.Loaded (s : State) (n : Nat) : Prop := ∀ k < n, (Memory.bit? s.buf k).isSome = true ∧ k / 8 ∉ s.stale

theorem State.loaded_iff (s : State) (n : Nat) :
    s.Loaded n ↔ Memory.written s.buf n = true ∧ s.reloaded n = true := by
  rw [Memory.written_iff, State.reloaded_iff]
  exact ⟨fun h => ⟨fun k hk => (h k hk).1, fun k hk => (h k hk).2⟩, fun ⟨hw, hr⟩ k hk => ⟨hw k hk, hr k hk⟩⟩

theorem exec_of_wait {i : Instr} (hi : i = .idle ∨ i = .done) (s : State) : exec i s = awaitStart s := by
  obtain rfl | rfl := hi <;> rfl

theorem exists_wait_of_not_busy {s : State} (hb : s.busy = false) :
    ∃ i : Instr, (i = .idle ∨ i = .done) ∧ s.phase = encode i := by
  obtain hp | hp := (busy_eq_false s).1 hb
  · exact ⟨.idle, .inl rfl, hp⟩
  · exact ⟨.done, .inr rfl, hp⟩

/-- While not busy and without reset a step is the host port, then the wait. -/
theorem step_of_not_busy {s u : State} (hr : s.pins.rst = false) (hb : s.busy = false) (hu : hostPort s = .next u) :
    step s = andThen (awaitStart u) fun t => .next t.endEdge := by
  obtain ⟨i, hi, hp⟩ := exists_wait_of_not_busy hb
  rw [step_of_hostPort hr hp hu, exec_of_wait hi]

theorem awaitStart_of_no_start {s : State} (hs : s.pins.start = false) : awaitStart s = .next s := by
  simp [awaitStart, hs]

theorem awaitStart_of_loaded {s : State} (hs : s.pins.start = true) (hn : s.pins.nbitsIn ≤ s.nbitsMax)
    (hl : s.Loaded s.pins.nbitsIn) : awaitStart s = .next (s.beginEvent s.pins.nbitsIn) := by
  obtain ⟨hw, hr⟩ := (s.loaded_iff _).1 hl
  simp [awaitStart, startEvent, hs, hn, hw, hr]

theorem awaitStart_of_too_long {s : State} (hs : s.pins.start = true) (hn : s.nbitsMax < s.pins.nbitsIn) :
    awaitStart s = .refused .startTooLong := by
  simp [awaitStart, startEvent, hs, Nat.not_le.2 hn]

theorem awaitStart_of_not_loaded {s : State} (hs : s.pins.start = true) (hn : s.pins.nbitsIn ≤ s.nbitsMax)
    (hl : ¬ s.Loaded s.pins.nbitsIn) : awaitStart s = .refused .startUnwritten := by
  have hc : (Memory.written s.buf s.pins.nbitsIn && s.reloaded s.pins.nbitsIn) = false := by
    rwa [State.loaded_iff, ← Bool.and_eq_true, Bool.not_eq_true] at hl
  simp [awaitStart, startEvent, hs, hn, hc]

/-- Settles O5: the two branches of the wait. -/
theorem idleAndDoneWaitOrStart : Obligations.IdleAndDoneWaitOrStart := by
  unfold Obligations.IdleAndDoneWaitOrStart
  intro s i hi
  rw [exec_of_wait hi]
  exact ⟨awaitStart_of_no_start, awaitStart_of_loaded⟩

/-- Settles O6: one missing bit, or one byte that still waits, is enough for the START not to be loaded. -/
theorem malformedStartIsRefused : Obligations.MalformedStartIsRefused := by
  unfold Obligations.MalformedStartIsRefused
  intro s i hi hs
  rw [exec_of_wait hi]
  refine ⟨awaitStart_of_too_long hs, fun hn ⟨k, hk, hbad⟩ => awaitStart_of_not_loaded hs hn fun hl => ?_⟩
  obtain ⟨hbit, hstale⟩ := hl k hk
  obtain hnone | hmem := hbad
  · simp [hnone] at hbit
  · exact hstale hmem

/-! ### Reset -/

/-- Reading a bit after a reset cut INVERT off (U9; log 8). -/
theorem Memory.bit?_forgetBelow (m : Memory) (n i : Nat) :
    Memory.bit? (Memory.forgetBelow m n) i = if n ≤ 8 * (i / 8) then Memory.bit? m i else none := by
  unfold Memory.bit?
  rw [Memory.byte?_forgetBelow]
  split <;> rfl

theorem State.bufAfterReset_of_invert {s : State} (h : s.phase = encode .invert) :
    s.bufAfterReset = Memory.forgetBelow s.buf s.nbits := if_pos h

theorem State.bufAfterReset_of_not_invert {s : State} (h : s.phase ≠ encode .invert) : s.bufAfterReset = s.buf :=
  if_neg h

/-- After a reset every byte that holds a value waits to be written again, so no START of a bit is loaded (log 18). -/
theorem applyReset_not_loaded (s : State) {n : Nat} (hn : 0 < n) : ¬ s.applyReset.Loaded n := by
  intro hl
  obtain ⟨hbit, hstale⟩ := hl 0 hn
  have hbyte : (Memory.byte? s.bufAfterReset 0).isSome = true := by simpa [Memory.bit?] using hbit
  exact hstale ((Memory.byte?_isSome_iff _ _).1 hbyte)

/-- Settles O1: the reset state is written out in the model, and its buffer lists no byte. -/
theorem resetStateIsIdleAndZero : Obligations.ResetStateIsIdleAndZero := by
  unfold Obligations.ResetStateIsIdleAndZero
  exact ⟨rfl, rfl, rfl, rfl, rfl, rfl, rfl, rfl, rfl, rfl, rfl, fun _ => rfl⟩

/-- Settles O2: a reset edge is `applyReset` and the passing of the edge. -/
theorem resetEdgeClearsEveryRegister : Obligations.ResetEdgeClearsEveryRegister := by
  unfold Obligations.ResetEdgeClearsEveryRegister
  intro s hr
  exact ⟨s.bufAfterReset, step_of_reset hr, State.bufAfterReset_of_not_invert⟩

/-- Settles O3: the reset takes the value from exactly the bytes that start below `nbits`. -/
theorem resetDuringInvertLeavesBitsUnspecified : Obligations.ResetDuringInvertLeavesBitsUnspecified := by
  unfold Obligations.ResetDuringInvertLeavesBitsUnspecified
  intro s hr hp
  refine ⟨_, step_of_reset hr, rfl, fun i hi => ?_, fun i hi => ?_⟩
  · rw [State.endEdge_buf, State.applyReset_buf, State.bufAfterReset_of_invert hp, Memory.bit?_forgetBelow,
      if_neg (by omega)]
  · rw [State.endEdge_buf, State.applyReset_buf, State.bufAfterReset_of_invert hp, Memory.bit?_forgetBelow, if_pos hi]

/-- Settles O4: the state after the reset edge is IDLE with nothing loaded, so the START is refused. -/
theorem resetDemandsAReload : Obligations.ResetDemandsAReload := by
  unfold Obligations.ResetDemandsAReload
  intro s t hr h ht hs hpos hn
  obtain rfl : s.applyReset.endEdge = t := Host.Outcome.next.inj ((step_of_reset hr).symm.trans h)
  have href : awaitStart s.applyReset.endEdge = .refused .startUnwritten :=
    awaitStart_of_not_loaded hs hn (applyReset_not_loaded s hpos)
  rw [step_of_not_busy ht rfl (hostPort_of_start hs), href, andThen_refused]

end Sys2Proof.Machine
end

section
/-! PROOFS. Everything an operation and a step can do, as one relation, and the frames that are read off it: the sink,
the buffer, a rejection. -/

namespace Sys2Proof.Machine

/-! ### Everything an operation can do -/

/-- From `s`, operation `i` answers the next state `t`: the edges of `40_sequencer.md` rule R85, each with the condition
it is taken under and the registers it writes. -/
inductive State.Effect (s : State) : Instr → State → Prop
  | wait {i : Instr} (hi : i = .idle ∨ i = .done) (hs : s.pins.start = false) : State.Effect s i s
  | start {i : Instr} (hi : i = .idle ∨ i = .done) (hs : s.pins.start = true) (hn : s.pins.nbitsIn ≤ s.nbitsMax)
      (hw : Memory.written s.buf s.pins.nbitsIn = true) (hr : s.reloaded s.pins.nbitsIn = true) :
      State.Effect s i (s.beginEvent s.pins.nbitsIn)
  | invert (hw : Memory.written s.buf s.nbits = true) :
      State.Effect s .invert ({ s with buf := Memory.invertBelow s.buf s.nbits }.goto .scan)
  | candidate {buf : List Bool} {p : Nat} (hb : s.buffer? = some buf) (hf : find buf s.cursor = some p)
      (hp : p + 80 ≤ s.nbits) : State.Effect s .scan ({ s with cand := p }.goto .mdec)
  | noCandidate {buf : List Bool} (hb : s.buffer? = some buf)
      (hf : ∀ p, find buf s.cursor = some p → s.nbits < p + 80) : State.Effect s .scan (s.goto .done)
  | fullWindow {buf : List Bool} (hb : s.buffer? = some buf) (hlen : (manchester buf (s.cand + 16)).1 = 72) :
      State.Effect s .mdec ({ s with win := (manchester buf (s.cand + 16)).2, winLen := 72 }.goto .syncchk)
  | shortWindow {buf : List Bool} (c : Cause) (hb : s.buffer? = some buf)
      (hlen : (manchester buf (s.cand + 16)).1 < 72) :
      State.Effect s .mdec
        ({ s with win := (manchester buf (s.cand + 16)).2, winLen := (manchester buf (s.cand + 16)).1 }.raise
          (.sanityFail c))
  | syncMatch (hs : syncOk s.win = true) : State.Effect s .syncchk (s.goto .crcchk)
  | syncDiffer (hs : syncOk s.win = false) : State.Effect s .syncchk (s.raise (.sanityFail .sync))
  | crcZero (hc : crc16 (crcSpan s.win) = 0#16) : State.Effect s .crcchk ({ s with crc := 0#16 }.goto .descr)
  | crcNonzero (hc : crc16 (crcSpan s.win) ≠ 0#16) :
      State.Effect s .crcchk
        ({ s with crc := crc16 (crcSpan s.win) }.raise (.integrityFail (crc16 (crcSpan s.win))))
  | descr : State.Effect s .descr ({ s with d := descramble (scrambledPayload s.win) }.goto .extract)
  | extract : State.Effect s .extract ({ s with rd := extractFields s.d }.goto .emit)
  | emit : State.Effect s .emit ({ s.emitRecord s.rd with eventCount := s.eventCount + 1 }.goto .advance)
  | advance : State.Effect s .advance s.resumeScan

theorem awaitStart_effect {s t : State} {i : Instr} (hi : i = .idle ∨ i = .done) (h : awaitStart s = .next t) :
    s.Effect i t := by
  obtain ⟨hs, rfl⟩ | ⟨hs, hn, hw, hr, rfl⟩ := awaitStart_eq_next h
  · exact .wait hi hs
  · exact .start hi hs hn hw hr

theorem exec_effect {s t : State} {i : Instr} (h : exec i s = .next t) : s.Effect i t := by
  cases i with
  | idle => exact awaitStart_effect (.inl rfl) h
  | done => exact awaitStart_effect (.inr rfl) h
  | invert =>
    obtain ⟨hw, rfl⟩ := execInvert_eq_next h
    exact .invert hw
  | scan =>
    obtain ⟨buf, hb, ⟨p, hf, hp, rfl⟩ | ⟨hf, rfl⟩⟩ := execScan_eq_next h
    · exact .candidate hb hf hp
    · exact .noCandidate hb hf
  | mdec =>
    obtain ⟨buf, hb, ⟨hlen, rfl⟩ | ⟨hlen, c, rfl⟩⟩ := execMdec_eq_next h
    · exact .fullWindow hb hlen
    · exact .shortWindow c hb hlen
  | syncchk =>
    obtain ⟨hs, rfl⟩ | ⟨hs, rfl⟩ := execSyncchk_eq_next h
    · exact .syncMatch hs
    · exact .syncDiffer hs
  | crcchk =>
    obtain ⟨hc, rfl⟩ | ⟨hc, rfl⟩ := execCrcchk_eq_next h
    · exact .crcZero hc
    · exact .crcNonzero hc
  | descr => exact execDescr_eq_next h ▸ .descr
  | extract => exact execExtract_eq_next h ▸ .extract
  | emit => exact execEmit_eq_next h ▸ .emit
  | advance => exact execAdvance_eq_next h ▸ .advance

/-- A step without reset: the host port, the operation `phase` selects, the passing of the edge. -/
theorem step_effect {s t : State} (hr : s.pins.rst = false) (h : step s = .next t) :
    ∃ i u v, s.phase = encode i ∧ hostPort s = .next u ∧ u.Effect i v ∧ t = v.endEdge := by
  obtain ⟨hr', -⟩ | ⟨-, i, u, v, hf, hu, hv, rfl⟩ := step_cases h
  · simp [hr] at hr'
  · exact ⟨i, u, v, fetch_eq_ok hf, hu, exec_effect hv, rfl⟩

theorem step_effect_of_busy {s t : State} (hr : s.pins.rst = false) (hb : s.busy = true) (h : step s = .next t) :
    ∃ i v, s.phase = encode i ∧ s.Effect i v ∧ t = v.endEdge := by
  obtain ⟨i, u, v, hp, hu, hv, rfl⟩ := step_effect hr h
  obtain rfl : s = u := Host.Outcome.next.inj ((hostPort_of_busy hb).symm.trans hu)
  exact ⟨i, v, hp, hv, rfl⟩

/-- In a busy phase that is known, a step is an effect of its operation. -/
theorem step_effect_of_phase {s t : State} {i : Instr} (hr : s.pins.rst = false) (hp : s.phase = encode i)
    (hi : i ≠ .idle) (hd : i ≠ .done) (h : step s = .next t) : ∃ v, s.Effect i v ∧ t = v.endEdge := by
  obtain ⟨j, v, hpj, hv, rfl⟩ := step_effect_of_busy hr (busy_of_phase hp hi hd) h
  obtain rfl : j = i := encode_injective _ _ (hpj.symm.trans hp)
  exact ⟨v, hv, rfl⟩

/-! ### EMIT and ADVANCE -/

/-- Settles O15: EMIT has one branch. -/
theorem emitAppendsTheReading : Obligations.EmitAppendsTheReading := by
  unfold Obligations.EmitAppendsTheReading
  intro s
  rfl

/-- Settles O16: ADVANCE has one branch, the return from a rejection. -/
theorem advanceMovesTheCursorTwoPastTheCandidate : Obligations.AdvanceMovesTheCursorTwoPastTheCandidate := by
  unfold Obligations.AdvanceMovesTheCursorTwoPastTheCandidate
  intro s
  rfl

/-! ### The sink -/

/-- What one operation adds to the sink's list: EMIT the record it counts, every other operation nothing. -/
theorem State.Effect.emitted {s t : State} {i : Instr} (h : s.Effect i t) :
    (t.emitted = s.emitted ∧ i ≠ .emit) ∨
      (i = .emit ∧ t.emitted = s.emitted ++ [s.rd] ∧ t.eventCount = s.eventCount + 1) := by
  cases h with
  | emit => exact .inr ⟨rfl, rfl, rfl⟩
  | wait hi | start hi => exact .inl ⟨rfl, by obtain rfl | rfl := hi <;> decide⟩
  | _ => exact .inl ⟨rfl, by decide⟩

theorem hostPort_frame_sink {s u : State} (h : hostPort s = .next u) :
    u.emitted = s.emitted ∧ u.eventCount = s.eventCount ∧ u.rd = s.rd := by
  obtain rfl | ⟨-, -, -, -, rfl⟩ := hostPort_eq_next h
  · exact ⟨rfl, rfl, rfl⟩
  · exact ⟨rfl, rfl, rfl⟩

/-- Settles O32: the operation adds what `State.Effect.emitted` says, the host port and reset nothing. -/
theorem onlyEmitReachesTheSink : Obligations.OnlyEmitReachesTheSink := by
  unfold Obligations.OnlyEmitReachesTheSink
  intro s t h
  cases hr : s.pins.rst with
  | true =>
    obtain rfl : s.applyReset.endEdge = t := Host.Outcome.next.inj ((step_of_reset hr).symm.trans h)
    exact .inl ⟨rfl, .inl rfl⟩
  | false =>
    obtain ⟨i, u, v, hp, hu, hv, rfl⟩ := step_effect hr h
    obtain ⟨hem, hec, hrd⟩ := hostPort_frame_sink hu
    obtain ⟨hkeep, hi⟩ | ⟨rfl, hadd, hcount⟩ := hv.emitted
    · exact .inl ⟨hkeep.trans hem, .inr (by simpa [hp] using hi)⟩
    · exact .inr ⟨rfl, hp, by rw [State.endEdge_emitted, hadd, hem, hrd], by rw [State.endEdge_eventCount, hcount, hec]⟩

/-! ### The buffer's owner -/

theorem State.Effect.buf {s t : State} {i : Instr} (h : s.Effect i t) (hi : i ≠ .invert) : t.buf = s.buf := by
  cases h with
  | invert => exact absurd rfl hi
  | _ => rfl

theorem hostPort_byte? {s u : State} (hwf : Memory.wf s.buf) (h : hostPort s = .next u) {a : Nat}
    (ha : a ≠ s.pins.hbAddr) : Memory.byte? u.buf a = Memory.byte? s.buf a := by
  obtain rfl | ⟨-, -, -, -, rfl⟩ := hostPort_eq_next h
  · rfl
  · rw [Memory.byte?_setByte _ _ _ _ hwf, if_neg ha.symm]

theorem ne_invert_of_not_busy {s : State} {i : Instr} (hp : s.phase = encode i) (hb : s.busy = false) :
    i ≠ .invert := by
  obtain rfl | rfl := wait_of_not_busy hp hb <;> decide

/-- Settles O33: of the operations only INVERT writes the buffer, and the host port writes one byte, while not busy. -/
theorem bufferIsChangedOnlyByItsOwner : Obligations.BufferIsChangedOnlyByItsOwner := by
  unfold Obligations.BufferIsChangedOnlyByItsOwner
  intro s t hr hwf h
  obtain ⟨i, u, v, hp, hu, hv, rfl⟩ := step_effect hr h
  have keep_of_no_write (hno : s.pins.hbWe = false ∨ s.busy = true ∨ s.pins.start = true) (hi : i ≠ .invert) :
      v.buf = s.buf := by
    obtain rfl : s = u := Host.Outcome.next.inj ((hostPort_of_no_honoured_write hno).symm.trans hu)
    exact hv.buf hi
  refine ⟨fun hb hinv => ?_, fun hb hno => ?_, fun hb a ha => ?_⟩
  · exact keep_of_no_write (.inr (.inl hb)) (by simpa [hp] using hinv)
  · exact keep_of_no_write (hno.imp_right .inr) (ne_invert_of_not_busy hp hb)
  · rw [State.endEdge_buf, hv.buf (ne_invert_of_not_busy hp hb), hostPort_byte? hwf hu ha]

/-! ### A rejection -/

/-- What a rejection does (`60_exceptions.md` rule R164): it writes the reason; the registers the host and the sink see,
and the search's position, stay. -/
theorem State.Effect.rejection {s t : State} {i : Instr} (h : s.Effect i t) (hi : i ∈ [.mdec, .syncchk, .crcchk])
    (ht : t.phase = encode .advance) :
    t.lastReason = (if i = .crcchk then .integrity else .sanity) ∧ t.emitted = s.emitted ∧
      t.eventCount = s.eventCount ∧ t.buf = s.buf ∧ t.nbits = s.nbits ∧ t.rd = s.rd ∧ t.d = s.d ∧
      t.cursor = s.cursor ∧ t.cand = s.cand := by
  cases h with
  | shortWindow | syncDiffer | crcNonzero => exact ⟨rfl, rfl, rfl, rfl, rfl, rfl, rfl, rfl, rfl⟩
  | fullWindow | syncMatch | crcZero => simp only [State.goto_phase, encode_inj, reduceCtorEq] at ht
  | wait hw | start hw => obtain rfl | rfl := hw <;> exact absurd hi (by decide)
  | _ => exact absurd hi (by decide)

theorem busy_of_phaseIn {s : State} {is : List Instr} (h : s.phaseIn is) (hidle : .idle ∉ is) (hdone : .done ∉ is) :
    s.busy = true := by
  obtain ⟨i, hi, hp⟩ := List.mem_map.1 h
  exact busy_of_phase hp.symm (fun h' => hidle (h' ▸ hi)) fun h' => hdone (h' ▸ hi)

theorem mem_of_phaseIn {s : State} {is : List Instr} {i : Instr} (h : s.phaseIn is) (hp : s.phase = encode i) :
    i ∈ is := by
  obtain ⟨j, hj, hpj⟩ := List.mem_map.1 h
  exact encode_injective _ _ (hpj.trans hp) ▸ hj

/-- Settles O35: the three raising operations run while busy, and each raises as `State.Effect.rejection` says. -/
theorem rejectionIsPrecise : Obligations.RejectionIsPrecise := by
  unfold Obligations.RejectionIsPrecise
  intro s t hr hin h ht
  obtain ⟨i, v, hp, hv, rfl⟩ := step_effect_of_busy hr (busy_of_phaseIn hin (by decide) (by decide)) h
  simpa [hp] using hv.rejection (mem_of_phaseIn hin hp) ht

end Sys2Proof.Machine
end

section
/-! PROOFS. The host's side of a step: the buffer port (`10_state.md` rule R20), what a busy block ignores
(`70_reset_and_hazards.md` rule R182), `last_reason` (`60_exceptions.md` rule R167) and the output ports (`10_state.md`
rules R17 to R20). -/

namespace Sys2Proof.Machine

/-! ### The buffer port -/

/-- The state behind an honoured host write (`10_state.md` rule R20; log 18). -/
def State.afterWrite (s : State) : State :=
  { s with
    buf := Memory.setByte s.buf s.pins.hbAddr s.pins.hbWdata
    stale := s.stale.filter fun a => decide (a ≠ s.pins.hbAddr) }

@[simp] theorem State.afterWrite_buf (s : State) :
    s.afterWrite.buf = Memory.setByte s.buf s.pins.hbAddr s.pins.hbWdata := rfl

theorem hostPort_of_write {s : State} (hb : s.busy = false) (hs : s.pins.start = false) (hw : s.pins.hbWe = true)
    (ha : s.pins.hbAddr < byteCount s.nbitsMax) : hostPort s = .next s.afterWrite := by
  simp [hostPort, hb, hs, hw, ha, State.afterWrite]

theorem hostPort_of_write_outside {s : State} (hb : s.busy = false) (hs : s.pins.start = false)
    (hw : s.pins.hbWe = true) (ha : byteCount s.nbitsMax ≤ s.pins.hbAddr) :
    hostPort s = .fault (.hostByteMissing s.pins.hbAddr) := by
  simp [hostPort, hb, hs, hw, Nat.not_lt.2 ha]

/-- With no START the wait changes nothing, so the step is the write. -/
theorem step_of_write {s : State} (hr : s.pins.rst = false) (hb : s.busy = false) (hs : s.pins.start = false)
    (hw : s.pins.hbWe = true) (ha : s.pins.hbAddr < byteCount s.nbitsMax) : step s = .next s.afterWrite.endEdge := by
  have hwait : awaitStart s.afterWrite = .next s.afterWrite := awaitStart_of_no_start hs
  rw [step_of_not_busy hr hb (hostPort_of_write hb hs hw ha), hwait, andThen_next]

/-- Settles O19: the step is the write (`step_of_write`), and `Memory.bit?_setByte` reads it back. -/
theorem hostWriteLandsWhileNotBusy : Obligations.HostWriteLandsWhileNotBusy := by
  unfold Obligations.HostWriteLandsWhileNotBusy
  intro s hr hp hwf hs hw ha
  refine ⟨_, step_of_write hr ((busy_eq_false s).2 hp) hs hw ha, Memory.wf_setByte _ _ hwf, fun k hk => ?_,
    fun i hi => ?_⟩
  · have hdiv : (8 * s.pins.hbAddr + k) / 8 = s.pins.hbAddr := by omega
    have hmod : (8 * s.pins.hbAddr + k) % 8 = k := by omega
    rw [State.afterWrite_buf, Memory.bit?_setByte _ _ _ _ hwf, if_pos hdiv, hmod, byteBit]
  · rw [State.afterWrite_buf, Memory.bit?_setByte _ _ _ _ hwf, if_neg hi]

/-- Settles O20: the port faults before the operation runs. -/
theorem hostWriteOutsideTheStorageFaults : Obligations.HostWriteOutsideTheStorageFaults := by
  unfold Obligations.HostWriteOutsideTheStorageFaults
  intro s hr hp hs hw ha
  have hb : s.busy = false := (busy_eq_false s).2 hp
  obtain ⟨i, -, hp⟩ := exists_wait_of_not_busy hb
  rw [step_of_phase hr hp, hostPort_of_write_outside hb hs hw ha, andThen_fault]

/-! ### What a busy block ignores -/

/-- No operation but the waits looks at the input ports: the same branch is taken, and every branch keeps them. -/
theorem exec_with_inputs {i : Instr} (hi : i ≠ .idle) (hd : i ≠ .done) (s : State) (ps : List Pins) :
    exec i { s with inputs := ps } = andThen (exec i s) fun t => .next { t with inputs := ps } := by
  have hb : ({ s with inputs := ps } : State).buffer? = s.buffer? := rfl
  cases i with
  | idle => exact absurd rfl hi
  | done => exact absurd rfl hd
  | descr | extract | emit | advance => rfl
  | invert | scan | mdec | syncchk | crcchk =>
    simp only [exec, execInvert, execScan, execMdec, execSyncchk, execCrcchk, hb]
    repeat' split
    all_goals rfl

/-- The step of a busy block, with the values on the ports split off: short of reset only the later ones stay. -/
theorem step_with_inputs_of_busy {s : State} {i : Instr} (hp : s.phase = encode i) (hb : s.busy = true) {p : Pins}
    (hr : p.rst = false) (ps : List Pins) :
    step { s with inputs := p :: ps } =
      andThen (exec i s) fun t => .next { t with inputs := ps, freeIndex := t.freeIndex + 1 } := by
  obtain ⟨hi, hd⟩ := not_wait_of_busy hp hb
  rw [step_of_hostPort (s := { s with inputs := p :: ps }) (i := i) hr hp (hostPort_of_busy hb), exec_with_inputs hi hd]
  cases exec i s <;> rfl

theorem step_of_decode_error {s : State} {e : DecodeError} (hr : s.pins.rst = false) (hd : decode s.phase = .error e) :
    step s = .fault (.noOperation s.phase) := by
  have hf : fetch s = .error e := hd
  simp [step, hr, hf]

/-- Settles O21: both steps are the operation's, with the same later inputs; a selector that selects none is stuck. -/
theorem busyBlockIgnoresTheHost : Obligations.BusyBlockIgnoresTheHost := by
  unfold Obligations.BusyBlockIgnoresTheHost
  intro s p p' ps hb hr hr'
  cases hd : decode s.phase with
  | error e =>
    calc step { s with inputs := p :: ps }
        = .fault (.noOperation s.phase) := step_of_decode_error (s := { s with inputs := p :: ps }) hr hd
      _ = step { s with inputs := p' :: ps } := (step_of_decode_error (s := { s with inputs := p' :: ps }) hr' hd).symm
  | ok i =>
    have hp : s.phase = encode i := (encode_of_decode hd).symm
    rw [step_with_inputs_of_busy hp hb hr, step_with_inputs_of_busy hp hb hr']

/-! ### `last_reason` is for the host alone -/

/-- An outcome with `last_reason` struck out. -/
def dropReason (o : Host.Outcome State Fault Refusal) : Host.Outcome State Fault Refusal :=
  andThen o fun t => .next { t with lastReason := .none }

/-- No operation reads `last_reason`: the same branch is taken, and every branch keeps or overwrites it. -/
theorem exec_with_reason (i : Instr) (s : State) (r : Reason) :
    dropReason (exec i { s with lastReason := r }) = dropReason (exec i s) := by
  have hb : ({ s with lastReason := r } : State).buffer? = s.buffer? := rfl
  have hw : ({ s with lastReason := r } : State).pins = s.pins := rfl
  have hl : ({ s with lastReason := r } : State).reloaded s.pins.nbitsIn = s.reloaded s.pins.nbitsIn := rfl
  cases i with
  | descr | extract | emit | advance => rfl
  | idle | done =>
    simp only [exec, execIdle, execDone, awaitStart, startEvent, hw, hl]
    repeat' split
    all_goals rfl
  | invert | scan | mdec | syncchk | crcchk =>
    simp only [exec, execInvert, execScan, execMdec, execSyncchk, execCrcchk, hb]
    repeat' split
    all_goals rfl

/-- The host port does not look at `last_reason` and keeps it. -/
theorem hostPort_with_reason (s : State) (r : Reason) :
    hostPort { s with lastReason := r } = andThen (hostPort s) fun u => .next { u with lastReason := r } := by
  have hp : ({ s with lastReason := r } : State).pins = s.pins := rfl
  have hb : ({ s with lastReason := r } : State).busy = s.busy := rfl
  simp only [hostPort, hp, hb]
  split
  · split <;> rfl
  · rfl

/-- Striking `last_reason` out commutes with the passing of the edge. -/
theorem dropReason_endEdge (o : Host.Outcome State Fault Refusal) :
    dropReason (andThen o fun t => .next t.endEdge) = andThen (dropReason o) fun t => .next t.endEdge := by
  cases o <;> rfl

theorem step_with_reason (s : State) (r : Reason) :
    dropReason (step { s with lastReason := r }) = dropReason (step s) := by
  cases hr : s.pins.rst with
  | true =>
    have hr' : ({ s with lastReason := r } : State).pins.rst = true := hr
    rw [step_of_reset hr, step_of_reset hr']
    rfl
  | false =>
    have hr' : ({ s with lastReason := r } : State).pins.rst = false := hr
    cases hd : decode s.phase with
    | error e =>
      rw [step_of_decode_error hr hd, step_of_decode_error (s := { s with lastReason := r }) hr' hd]
    | ok i =>
      have hp : s.phase = encode i := (encode_of_decode hd).symm
      rw [step_of_phase hr hp, step_of_phase (s := { s with lastReason := r }) hr' hp, hostPort_with_reason]
      cases hostPort s with
      | fault f => rfl
      | refused f => rfl
      | next u => simp only [andThen_next, dropReason_endEdge, exec_with_reason]

/-- Settles O37: neither the port nor an operation reads `last_reason` (`step_with_reason`). -/
theorem lastReasonHasNoControlRole : Obligations.LastReasonHasNoControlRole := by
  unfold Obligations.LastReasonHasNoControlRole
  exact step_with_reason

/-! ### The output ports -/

theorem busy_eq_true (s : State) : s.busy = true ↔ s.phase ≠ encode .idle ∧ s.phase ≠ encode .done := by
  rw [← Bool.not_eq_false, busy_eq_false, not_or]

/-- The codes of rule R19 name the reasons. -/
theorem reason_code_inj (r r' : Reason) : r.code = r'.code ↔ r = r' := by
  cases r <;> cases r' <;> decide

/-- Settles O23: each port is a comparison of `phase` or a register. -/
theorem outputsFollowTheState : Obligations.OutputsFollowTheState := by
  unfold Obligations.OutputsFollowTheState
  intro s
  have hdone : s.isDone = true ↔ s.phase = 10#4 := beq_iff_eq
  have hvalid : s.rdValid = true ↔ s.phase = 8#4 := beq_iff_eq
  exact ⟨busy_eq_true s, hdone, hvalid, rfl, reason_code_inj s.lastReason .none, reason_code_inj s.lastReason .sanity,
    reason_code_inj s.lastReason .integrity, rfl, rfl, rfl, rfl, rfl, rfl, rfl⟩

/-- A byte is its eight places. -/
theorem byte_ext {b c : Byte} (h : ∀ k < 8, byteBit b k = byteBit c k) : b = c := by
  apply BitVec.eq_of_getLsbD_eq
  intro i hi
  have hplace : byteBit b (7 - i) = byteBit c (7 - i) := h _ (by omega)
  simpa only [byteBit, Nat.sub_sub_self (Nat.le_of_lt_succ hi)] using hplace

/-- Within the storage a host read shows the stored byte, place by place. -/
theorem byteBit_hbRdata {s : State} {b : Byte} {k : Nat} (hb : s.busy = false) (hfresh : s.pins.hbAddr ∉ s.stale)
    (hbyte : Memory.byte? s.buf s.pins.hbAddr = some b) (hk : k < 8) (hin : 8 * s.pins.hbAddr + k < s.nbitsMax) :
    byteBit s.hbRdata k = byteBit b k := by
  have hplace : byteBit (placesBelow s.nbitsMax s.pins.hbAddr) k = true := by
    rw [byteBit_placesBelow _ _ _ hk]; exact decide_eq_true hin
  have hc : (s.busy || s.stale.contains s.pins.hbAddr) = false := by simp [hb, hfresh]
  simp only [State.hbRdata, hc, hbyte]
  split
  · next h => exact absurd h (by decide)
  · split
    · rfl
    · simp only [byteBit] at hplace ⊢
      rw [BitVec.getLsbD_or, BitVec.getLsbD_and, BitVec.getLsbD_and, BitVec.getLsbD_not, hplace]
      simp

/-- Settles O24: `byteBit_hbRdata` for one place, and for all eight of a byte that lies within the storage. -/
theorem hostReadShowsTheByte : Obligations.HostReadShowsTheByte := by
  unfold Obligations.HostReadShowsTheByte
  intro s hb hfresh
  have hbit : ∀ (k : Nat) (v : Bool), k < 8 → 8 * s.pins.hbAddr + k < s.nbitsMax →
      Memory.bit? s.buf (8 * s.pins.hbAddr + k) = some v → byteBit s.outputs.hbRdata k = v := by
    intro k v hk hin hv
    have hdiv : (8 * s.pins.hbAddr + k) / 8 = s.pins.hbAddr := by omega
    have hmod : (8 * s.pins.hbAddr + k) % 8 = k := by omega
    rw [Memory.bit?, hdiv, hmod, Option.map_eq_some_iff] at hv
    obtain ⟨b, hbyte, rfl⟩ := hv
    exact byteBit_hbRdata hb hfresh hbyte hk hin
  exact ⟨hbit, fun b hin hall => byte_ext fun k hk => hbit k _ hk (by omega) (hall k hk)⟩

end Sys2Proof.Machine
end

section
/-! PROOFS. The operations on the bit buffer: INVERT (`40_sequencer.md` rule R82), SCAN (`41_preamble_scanner.md` rules
R90, R91, R93) and MDEC (`42_manchester_decoder.md` rules R100, R101). -/

namespace Sys2Proof.Machine

/-! ### The valid bits as a bit string -/

theorem State.readable_iff_written (s : State) : s.readable ↔ Memory.written s.buf s.nbits = true :=
  (Memory.written_iff _ _).symm

theorem State.buffer?_eq_some_iff (s : State) (buf : List Bool) :
    s.buffer? = some buf ↔ buf.length = s.nbits ∧ ∀ i < s.nbits, Memory.bit? s.buf i = buf[i]? := by
  rw [State.buffer?, Memory.readBits_eq_some]
  simp only [Nat.zero_add]

theorem State.exists_buffer {s : State} (h : s.readable) : ∃ buf, s.buffer? = some buf :=
  Option.isSome_iff_exists.1 ((State.buffer?_isSome s).2 (s.readable_iff_written.1 h))

theorem not_written_of_missing {s : State} (h : ∃ k < s.nbits, Memory.bit? s.buf k = none) :
    ¬ Memory.written s.buf s.nbits = true := by
  rw [Memory.written_iff]
  obtain ⟨k, hk, hnone⟩ := h
  exact fun hall => by simpa [hnone] using hall k hk

theorem buffer?_of_missing {s : State} (h : ∃ k < s.nbits, Memory.bit? s.buf k = none) : s.buffer? = none := by
  rw [← Option.not_isSome_iff_eq_none, State.buffer?_isSome]
  exact not_written_of_missing h

/-- `MemRead` looks at the positions it reads and at no other. -/
theorem Memory.readBits_congr {m m' : Memory} {a n : Nat}
    (h : ∀ k < n, Memory.bit? m (a + k) = Memory.bit? m' (a + k)) :
    Memory.readBits m a n = Memory.readBits m' a n := by
  induction n generalizing a with
  | zero => rfl
  | succ n ih =>
    have hhead : Memory.bit? m a = Memory.bit? m' a := h 0 (by omega)
    have htail : Memory.readBits m (a + 1) n = Memory.readBits m' (a + 1) n := ih fun k hk => by
      rw [show a + 1 + k = a + (k + 1) by omega]; exact h (k + 1) (by omega)
    simp only [Memory.readBits, hhead, htail]

/-- Settles O17: INVERT checks `written`, SCAN and MDEC read the valid bits. -/
theorem unwrittenBitFaults : Obligations.UnwrittenBitFaults := by
  unfold Obligations.UnwrittenBitFaults
  intro s i hi hmiss
  obtain rfl | rfl | rfl := hi
  · simp [exec, execInvert, not_written_of_missing hmiss]
  · simp [exec, execScan, buffer?_of_missing hmiss]
  · simp [exec, execMdec, buffer?_of_missing hmiss]

/-- Settles O38: SCAN and MDEC read the buffer through `State.buffer?` alone, which stops at `nbits`. -/
theorem padBitsAreNeverRead : Obligations.PadBitsAreNeverRead := by
  unfold Obligations.PadBitsAreNeverRead
  intro s m m' i hi h
  have hb : ({ s with buf := m } : State).buffer? = ({ s with buf := m' } : State).buffer? :=
    Memory.readBits_congr fun k hk => by simpa using h k hk
  obtain rfl | rfl := hi
  · simp only [exec, execScan, hb]
    repeat' split
    all_goals rfl
  · simp only [exec, execMdec, hb]
    repeat' split
    all_goals rfl

/-! ### INVERT -/

theorem exec_invert_of_written {s : State} (h : Memory.written s.buf s.nbits = true) :
    exec .invert s = .next ({ s with buf := Memory.invertBelow s.buf s.nbits }.goto .scan) := by
  simp [exec, execInvert, h]

/-- Settles O7: `Memory.bit?_invertBelow` position by position. -/
theorem invertComplementsTheValidBits : Obligations.InvertComplementsTheValidBits := by
  unfold Obligations.InvertComplementsTheValidBits
  intro s h
  refine ⟨_, exec_invert_of_written (s.readable_iff_written.1 h), fun i => ?_⟩
  rw [Memory.bit?_invertBelow]
  split
  · rfl
  · simp

theorem Memory.written_invertBelow (m : Memory) (n k : Nat) :
    Memory.written (Memory.invertBelow m n) k = Memory.written m k := by
  simp only [Memory.written, Memory.bit?_invertBelow, Option.isSome_map]

/-- INVERT is its own inverse on every position (`70_reset_and_hazards.md` rule R183). -/
theorem Memory.bit?_invertBelow_twice (m : Memory) (n i : Nat) :
    Memory.bit? (Memory.invertBelow (Memory.invertBelow m n) n) i = Memory.bit? m i := by
  rw [Memory.bit?_invertBelow, Memory.bit?_invertBelow, Option.map_map]
  by_cases hi : i < n
  · simp [hi, Function.comp_def]
  · simp [hi, Function.comp_def]

theorem Memory.bit?_invertBelow_ne {m : Memory} {n i : Nat} (hi : i < n) (hv : (Memory.bit? m i).isSome = true) :
    Memory.bit? (Memory.invertBelow m n) i ≠ Memory.bit? m i := by
  obtain ⟨b, hb⟩ := Option.isSome_iff_exists.1 hv
  simp [Memory.bit?_invertBelow, hb, hi]

/-- Settles O39: the first INVERT complements the valid bits, the second complements them back. -/
theorem secondInversionRestoresTheBuffer : Obligations.SecondInversionRestoresTheBuffer := by
  unfold Obligations.SecondInversionRestoresTheBuffer
  intro s h
  have hw : Memory.written s.buf s.nbits = true := s.readable_iff_written.1 h
  have hw' : Memory.written (Memory.invertBelow s.buf s.nbits) s.nbits = true :=
    (Memory.written_invertBelow _ _ _).trans hw
  exact ⟨_, _, exec_invert_of_written hw, exec_invert_of_written hw', rfl,
    fun i hi => Memory.bit?_invertBelow_ne hi (h i hi), fun i => Memory.bit?_invertBelow_twice _ _ i⟩

/-! ### SCAN -/

theorem exec_scan_of_candidate {s : State} {buf : List Bool} {p : Nat} (hb : s.buffer? = some buf)
    (hf : find buf s.cursor = some p) (hp : p + 80 ≤ s.nbits) :
    exec .scan s = .next ({ s with cand := p }.goto .mdec) := by
  simp [exec, execScan, hb, hf, Config.minRemain, hp]

theorem exec_scan_of_no_candidate {s : State} {buf : List Bool} (hb : s.buffer? = some buf)
    (hf : ∀ p, find buf s.cursor = some p → s.nbits < p + 80) : exec .scan s = .next (s.goto .done) := by
  cases hfind : find buf s.cursor with
  | none => simp [exec, execScan, hb, hfind]
  | some p => simp [exec, execScan, hb, hfind, Config.minRemain, Nat.not_le.2 (hf p hfind)]

/-- Settles O8: `find` answers the lowest match (`find_eq_some`), and a match is the pattern in the buffer
(`matchesAt_iff_patternAt`). -/
theorem scanTakesTheLowestCandidate : Obligations.ScanTakesTheLowestCandidate := by
  unfold Obligations.ScanTakesTheLowestCandidate
  intro s h
  obtain ⟨buf, hb⟩ := State.exists_buffer h
  refine ⟨fun p hle hpat hlow hp => ?_, fun hshort => ?_⟩
  · have hf : find buf s.cursor = some p := (find_eq_some _ _ _).2
      ⟨hle, (matchesAt_iff_patternAt hb p).2 hpat, fun q hq hqp => by
        rw [← Bool.not_eq_true, matchesAt_iff_patternAt hb]; exact hlow q hq hqp⟩
    exact exec_scan_of_candidate hb hf hp
  · refine exec_scan_of_no_candidate hb fun p hf => ?_
    obtain ⟨hle, hm, -⟩ := (find_eq_some _ _ _).1 hf
    exact hshort p hle ((matchesAt_iff_patternAt hb p).1 hm)

/-- The pattern differs from itself shifted by 1 to 21 and by 23 bits, somewhere in the part that overlaps. -/
theorem pat_shifted_ne : ∀ k < 24, 1 ≤ k → k ≠ 22 →
    ∃ j < 24 - k, Config.pat.getMsbD (k + j) ≠ Config.pat.getMsbD j := by
  decide

/-- Settles O40: two overlapping matches would make the pattern agree with itself shifted. -/
theorem patternOverlapsItselfOnlyAtTwentyTwo : Obligations.PatternOverlapsItselfOnlyAtTwentyTwo := by
  unfold Obligations.PatternOverlapsItselfOnlyAtTwentyTwo
  intro buf p k hm h1 h23 h22
  rw [← Bool.not_eq_true]
  intro hm'
  obtain ⟨j, hj, hne⟩ := pat_shifted_ne k (by omega) h1 h22
  have hfirst : buf[p + (k + j)]? = some (Config.pat.getMsbD (k + j)) := (matchesAt_iff _ _).1 hm _ (by omega)
  have hsecond : buf[p + k + j]? = some (Config.pat.getMsbD j) := (matchesAt_iff _ _).1 hm' _ (by omega)
  rw [Nat.add_assoc, hfirst] at hsecond
  exact hne (Option.some.inj hsecond)

/-! ### The Manchester decoder -/

/-- A window is made of its first `n` bits when it holds zeros from there on (`10_state.md` rule R14, D28). -/
theorem windowOf_first_bits {w : Window} {n : Nat} (hn : n ≤ 72) (hz : ∀ i < 72, n ≤ i → w.getMsbD i = false) :
    windowOf ((List.range n).map w.getMsbD) = w := by
  refine window_ext fun i hi => ?_
  rw [windowBit_windowOf _ (by simpa using hn) i hi, windowBit]
  by_cases hin : i < n
  · simp [List.getD_eq_getElem?_getD, hin]
  · simp [List.getD_eq_getElem?_getD, hin, hz i hi (by omega)]

/-- A decoded bit stands for its transition pair in the buffer. -/
theorem bitsCode_of_decodedBits {buf : List Bool} {s i : Nat} {b : Bool} (h : (decodedBits buf s)[i]? = some b) :
    bitsCode buf (s + 2 * i) b := by
  simpa [bitsCode, List.getElem?_drop, Nat.add_assoc] using decodePairs_getElem _ _ _ _ h

/-- Where rule R100's loop stops: behind 72 pairs, or at a pair that is not wholly inside the buffer or has two equal
bits. -/
def StopsAt (buf : List Bool) (s n : Nat) : Prop :=
  n = 72 ∨ buf.length ≤ s + 2 * n + 1 ∨ buf[s + 2 * n]? = buf[s + 2 * n + 1]?

/-- The pairs in front of the first stop determine the decoded bits. -/
theorem decodedBits_eq {buf l : List Bool} {s : Nat} (hl : l.length ≤ 72)
    (hpairs : ∀ i, (hi : i < l.length) → bitsCode buf (s + 2 * i) l[i]) (hstop : StopsAt buf s l.length) :
    decodedBits buf s = l := by
  have hpre : l <+: decodedBits buf s := decodePairs_of_pairs _ _ _ hl fun i hi => by
    simpa [bitsCode, List.getElem?_drop, Nat.add_assoc] using hpairs i hi
  have hle : (decodedBits buf s).length ≤ 72 := decodePairs_length_le _ _
  refine (hpre.eq_of_length_le ?_).symm
  by_contra hlt
  obtain ⟨hfirst, hsecond⟩ :=
    bitsCode_of_decodedBits (buf := buf) (s := s) (List.getElem?_eq_getElem (i := l.length) (Nat.lt_of_not_le hlt))
  obtain h72 | hend | heq := hstop
  · omega
  · rw [List.getElem?_eq_none (by omega)] at hsecond
    cases hsecond
  · rw [hfirst, hsecond] at heq
    simp at heq

/-- The window the decoder answers, from the pairs it codes and the place where the decode stops. -/
theorem manchester_eq {buf : List Bool} {s n : Nat} {w : Window} (hn : n ≤ 72)
    (hpairs : ∀ i < n, bitsCode buf (s + 2 * i) (w.getMsbD i)) (hz : ∀ i < 72, n ≤ i → w.getMsbD i = false)
    (hstop : StopsAt buf s n) : manchester buf s = (n, w) := by
  have hbits : decodedBits buf s = (List.range n).map w.getMsbD :=
    decodedBits_eq (by simpa using hn) (fun i hi => by simpa using hpairs i (by simpa using hi)) (by simpa using hstop)
  rw [manchester, hbits, windowOf_first_bits hn hz]
  simp

/-! ### MDEC -/

theorem exec_mdec_of_full {s : State} {buf : List Bool} {w : Window} (hb : s.buffer? = some buf)
    (hm : manchester buf (s.cand + 16) = (72, w)) :
    exec .mdec s = .next ({ s with win := w, winLen := 72 }.goto .syncchk) := by
  simp [exec, execMdec, hb, Config.winOffset, Config.winBits, hm]

theorem exec_mdec_of_short {s : State} {buf : List Bool} {w : Window} {n : Nat} (hb : s.buffer? = some buf)
    (hm : manchester buf (s.cand + 16) = (n, w)) (hn : n < 72) :
    exec .mdec s =
      .next ({ s with win := w, winLen := n }.raise (.sanityFail (stopCause s.nbits (s.cand + 16) n))) := by
  simp [exec, execMdec, hb, Config.winOffset, Config.winBits, hm, hn]

/-- A pair that lies inside the valid bits codes the same in the buffer and in its bit string. -/
theorem bitsCode_iff_pairCodes {s : State} {buf : List Bool} (hb : s.buffer? = some buf) {q : Nat}
    (hq : q + 1 < s.nbits) (b : Bool) : bitsCode buf q b ↔ s.pairCodes q b := by
  obtain ⟨-, hbit⟩ := (s.buffer?_eq_some_iff buf).1 hb
  rw [bitsCode, State.pairCodes, hbit q (by omega), hbit (q + 1) hq]

/-- Settles O9: 72 pairs are all the decoder asks for. -/
theorem mdecDecodesAFullWindow : Obligations.MdecDecodesAFullWindow := by
  unfold Obligations.MdecDecodesAFullWindow
  intro s w h hin hpairs
  obtain ⟨buf, hb⟩ := State.exists_buffer h
  have hm : manchester buf (s.cand + 16) = (72, w) :=
    manchester_eq (Nat.le_refl 72) (fun i hi => (bitsCode_iff_pairCodes hb (by omega) _).2 (hpairs i hi))
      (fun i hi hle => absurd hle (Nat.not_le.2 hi)) (.inl rfl)
  exact exec_mdec_of_full hb hm

/-- Settles O10: pair `n` stops the decode. -/
theorem mdecRejectsAShortWindow : Obligations.MdecRejectsAShortWindow := by
  unfold Obligations.MdecRejectsAShortWindow
  intro s w n h hn hpairs hz hstop
  obtain ⟨buf, hb⟩ := State.exists_buffer h
  obtain ⟨hlen, hbit⟩ := (s.buffer?_eq_some_iff buf).1 hb
  have hstops : StopsAt buf (s.cand + 16) n := by
    by_cases hend : s.nbits ≤ s.cand + 16 + 2 * n + 1
    · exact .inr (.inl (hlen ▸ hend))
    · have heq := hstop.resolve_left hend
      rw [hbit _ (by omega), hbit _ (by omega)] at heq
      exact .inr (.inr heq)
  have hm : manchester buf (s.cand + 16) = (n, w) :=
    manchester_eq hn.le (fun i hi => (bitsCode_iff_pairCodes hb (hpairs i hi).1 _).2 (hpairs i hi).2) hz hstops
  exact exec_mdec_of_short hb hm hn

end Sys2Proof.Machine
end

section
/-! PROOFS. The invariant of the block: every operation keeps each of its clauses, the host port and reset keep it, and
what follows from it: the widths of `10_state.md` rule R13, progress, and the order of the tests
(`60_exceptions.md` rule R166). -/

namespace Sys2Proof.Machine

/-! ### The phase a clause speaks of -/

theorem phaseIn_of_mem {s : State} {i : Instr} {is : List Instr} (hp : s.phase = encode i) (hi : i ∈ is) :
    s.phaseIn is := List.mem_map.2 ⟨i, hi, hp.symm⟩

theorem not_phaseIn {s : State} {i : Instr} {is : List Instr} (hp : s.phase = encode i) (hi : i ∉ is) :
    ¬ s.phaseIn is := fun h => hi (mem_of_phaseIn h hp)

/-! ### The storage -/

theorem Memory.mem_invertBelow_addr {m : Memory} {n N : Nat} (h : ∀ c ∈ m, c.1 < N) :
    ∀ c ∈ Memory.invertBelow m n, c.1 < N := by
  intro c hc
  obtain ⟨c', hc', rfl⟩ := List.mem_map.1 hc
  exact h c' hc'

theorem State.Effect.storageOk {s t : State} {i : Instr} (h : s.Effect i t) (hs : s.storageOk) : t.storageOk := by
  cases h with
  | invert =>
    obtain ⟨hwf, haddr, hpw, hstale⟩ := hs
    refine ⟨Memory.wf_invertBelow _ hwf, Memory.mem_invertBelow_addr haddr, hpw, fun a ha => ?_⟩
    rw [State.goto_buf, Memory.byte?_invertBelow, Option.isSome_map]
    exact hstale a ha
  | _ => exact hs

theorem afterWrite_storageOk {s : State} (hs : s.storageOk) (ha : s.pins.hbAddr < byteCount s.nbitsMax) :
    s.afterWrite.storageOk := by
  obtain ⟨hwf, haddr, hpw, hstale⟩ := hs
  refine ⟨Memory.wf_setByte _ _ hwf, fun c hc => ?_, hpw.filter _, fun a hmem => ?_⟩
  · obtain rfl | hc := Memory.mem_setByte hc
    · exact ha
    · exact haddr c hc
  · obtain ⟨hmem, hne⟩ := List.mem_filter.1 hmem
    rw [State.afterWrite_buf, Memory.byte?_setByte _ _ _ _ hwf, if_neg (Ne.symm (of_decide_eq_true hne))]
    exact hstale a hmem

theorem mem_of_mem_bufAfterReset {s : State} {c : Host.Cell} (h : c ∈ s.bufAfterReset) : c ∈ s.buf := by
  unfold State.bufAfterReset at h
  split at h
  · exact (List.mem_filter.1 h).1
  · exact h

theorem applyReset_storageOk {s : State} (hs : s.storageOk) : s.applyReset.storageOk := by
  obtain ⟨hwf, haddr, -, -⟩ := hs
  have hwf' : Memory.wf s.bufAfterReset := s.wf_bufAfterReset hwf
  exact ⟨hwf', fun c hc => haddr c (mem_of_mem_bufAfterReset hc), List.pairwise_map.2 hwf',
    fun a => (Memory.byte?_isSome_iff _ a).2⟩

/-! ### The control registers and the bit count -/

theorem State.Effect.controlOk {s t : State} {i : Instr} (h : s.Effect i t) (hc : s.controlOk) : t.controlOk := by
  have hlen : s.winLen ≤ Config.winBits := hc.2
  cases h with
  | wait => exact hc
  | fullWindow => exact ⟨rfl, Nat.le_refl 72⟩
  | shortWindow _ _ hshort => exact ⟨rfl, hshort.le⟩
  | _ => exact ⟨rfl, hlen⟩

theorem State.Effect.launchOk {s t : State} {i : Instr} (h : s.Effect i t) (hp : s.phase = encode i)
    (hl : s.launchOk) : t.launchOk := by
  have ⟨hn, hbusy⟩ := hl
  cases h with
  | wait => exact hl
  | start _ _ hn hw hr => exact ⟨hn, fun _ => ⟨hw, hr⟩⟩
  | invert hw =>
    obtain ⟨-, hr⟩ := hbusy (busy_of_phase hp (by decide) (by decide))
    exact ⟨hn, fun _ => ⟨(Memory.written_invertBelow _ _ _).trans hw, hr⟩⟩
  | _ => exact ⟨hn, fun _ => hbusy (busy_of_phase hp (by decide) (by decide))⟩

/-! ### The positions -/

/-- A match is the pattern, read as a bit string. -/
theorem readBits_of_find {s : State} {buf : List Bool} {start p : Nat} (hb : s.buffer? = some buf)
    (hf : find buf start = some p) : Memory.readBits s.buf p Config.patBits = some patBitString := by
  obtain ⟨-, hm, -⟩ := (find_eq_some _ _ _).1 hf
  obtain ⟨-, hpat⟩ := (matchesAt_iff_patternAt hb p).1 hm
  refine (Memory.readBits_eq_some _ _ _ _).2 ⟨patBitString_length, fun k hk => ?_⟩
  have hk : k < 24 := hk
  rw [hpat k hk]
  simp [patBitString, Config.patBits, Config.pat, hk]

theorem State.Effect.positionsOk {s t : State} {i : Instr} (h : s.Effect i t) (hp : s.phase = encode i)
    (hn : s.nbits ≤ s.nbitsMax) (hpos : s.positionsOk) : t.positionsOk := by
  have ⟨hcur, hcand, hat⟩ := hpos
  cases h with
  | wait => exact hpos
  | start => exact ⟨.inl rfl, hcand, fun h => absurd h (not_phaseIn (i := .invert) rfl (by decide))⟩
  | invert => exact ⟨hcur, hcand, fun h => absurd h (not_phaseIn (i := .scan) rfl (by decide))⟩
  | candidate hb hf hle =>
    obtain ⟨hlow, -, -⟩ := (find_eq_some _ _ _).1 hf
    exact ⟨hcur, .inr (hle.trans hn), fun _ => ⟨hlow, hle, readBits_of_find hb hf⟩⟩
  | noCandidate => exact ⟨hcur, hcand, fun h => absurd h (not_phaseIn (i := .done) rfl (by decide))⟩
  | advance =>
    obtain ⟨-, hle, -⟩ := hat (phaseIn_of_mem hp (by decide))
    refine ⟨.inr ?_, hcand, fun h => absurd h (not_phaseIn (i := .scan) rfl (by decide))⟩
    simp only [State.resumeScan_cursor, State.resumeScan_nbits, Config.adv]
    omega
  | _ => exact ⟨hcur, hcand, fun _ => hat (phaseIn_of_mem hp (by decide))⟩

/-! ### The transient registers of an attempt -/

/-- Outside the operations behind the length test the clause asks for nothing. -/
theorem attemptOk_of_not_afterLength {s : State} {i : Instr} (hp : s.phase = encode i) (hi : i ∉ afterLength) :
    s.attemptOk := by
  have hno : ∀ is : List Instr, is ⊆ afterLength → ¬ s.phaseIn is := fun is hsub => not_phaseIn hp fun h => hi (hsub h)
  exact ⟨fun h => absurd h (hno _ (by decide)), fun h => absurd h (hno _ (by decide)),
    fun h => absurd h (hno _ (by decide)), fun h => absurd h (hno _ (by decide)), fun h => absurd h (hno _ (by decide))⟩

theorem attemptOk_goto {s : State} {i : Instr} (hi : i ∉ afterLength) : (s.goto i).attemptOk :=
  attemptOk_of_not_afterLength rfl hi

theorem attemptOk_raise (s : State) (e : Rejection) : (s.raise e).attemptOk :=
  attemptOk_of_not_afterLength (i := .advance) rfl (by decide)

theorem State.Effect.attemptOk {s t : State} {i : Instr} (h : s.Effect i t) (hp : s.phase = encode i)
    (hat : s.attemptOk) : t.attemptOk := by
  have ⟨hlength, hsync, hcrc, hd, _⟩ := hat
  cases h with
  | wait => exact hat
  | start => exact attemptOk_of_not_afterLength (i := .invert) rfl (by decide)
  | advance => exact attemptOk_of_not_afterLength (i := .scan) rfl (by decide)
  | invert | candidate | noCandidate | emit => exact attemptOk_goto (by decide)
  | shortWindow | syncDiffer | crcNonzero => exact attemptOk_raise _ _
  | fullWindow hb hlen =>
    refine ⟨fun _ => ⟨rfl, (congrArg _ hb).trans (congrArg some (Prod.ext hlen rfl))⟩, ?_, ?_, ?_, ?_⟩ <;>
      exact fun h => absurd h (not_phaseIn (i := .syncchk) rfl (by decide))
  | syncMatch hs =>
    refine ⟨fun _ => hlength (phaseIn_of_mem hp (by decide)), fun _ => hs, ?_, ?_, ?_⟩ <;>
      exact fun h => absurd h (not_phaseIn (i := .crcchk) rfl (by decide))
  | crcZero hc =>
    refine ⟨fun _ => hlength (phaseIn_of_mem hp (by decide)), fun _ => hsync (phaseIn_of_mem hp (by decide)),
      fun _ => ⟨rfl, hc⟩, ?_, ?_⟩ <;> exact fun h => absurd h (not_phaseIn (i := .descr) rfl (by decide))
  | descr =>
    exact ⟨fun _ => hlength (phaseIn_of_mem hp (by decide)), fun _ => hsync (phaseIn_of_mem hp (by decide)),
      fun _ => hcrc (phaseIn_of_mem hp (by decide)), fun _ => rfl,
      fun h => absurd h (not_phaseIn (i := .extract) rfl (by decide))⟩
  | extract =>
    exact ⟨fun _ => hlength (phaseIn_of_mem hp (by decide)), fun _ => hsync (phaseIn_of_mem hp (by decide)),
      fun _ => hcrc (phaseIn_of_mem hp (by decide)), fun _ => hd (phaseIn_of_mem hp (by decide)), fun _ => rfl⟩

/-! ### The count -/

theorem countOk_of_advance {s : State} (hp : s.phase = encode .advance) (h : 2 * s.eventCount ≤ s.cand + 2) :
    s.countOk :=
  ⟨fun _ => h, fun hno => absurd (phaseIn_of_mem hp (by decide)) hno, fun h' => absurd h' (not_phaseIn hp (by decide))⟩

theorem countOk_of_le_cursor {s : State} {i : Instr} (hp : s.phase = encode i) (ha : i ∉ [Instr.advance])
    (hi : i ∉ [Instr.invert]) (h : 2 * s.eventCount ≤ s.cursor) : s.countOk :=
  ⟨fun h' => absurd h' (not_phaseIn hp ha), fun _ => h, fun h' => absurd h' (not_phaseIn hp hi)⟩

theorem countOk_goto {s : State} {i : Instr} (ha : i ∉ [Instr.advance]) (hi : i ∉ [Instr.invert])
    (h : 2 * s.eventCount ≤ s.cursor) : (s.goto i).countOk := countOk_of_le_cursor rfl ha hi h

theorem State.Effect.countOk {s t : State} {i : Instr} (h : s.Effect i t) (hp : s.phase = encode i)
    (hpos : s.positionsOk) (hcount : s.countOk) : t.countOk := by
  have ⟨hadv, hle, _⟩ := hcount
  obtain ⟨-, -, hat⟩ := hpos
  cases h with
  | wait => exact hcount
  | start =>
    exact ⟨fun h => absurd h (not_phaseIn (i := .invert) rfl (by decide)), fun _ => Nat.zero_le _,
      fun _ => ⟨rfl, rfl, rfl⟩⟩
  | shortWindow | syncDiffer | crcNonzero | emit =>
    have hcur : 2 * s.eventCount ≤ s.cursor := hle (not_phaseIn hp (by decide))
    obtain ⟨hcand, -, -⟩ := hat (phaseIn_of_mem hp (by decide))
    refine countOk_of_advance rfl ?_
    simp only [State.raise_eventCount, State.raise_cand, State.goto_eventCount, State.goto_cand, State.emitRecord_cand]
    omega
  | advance =>
    exact countOk_of_le_cursor (i := .scan) rfl (by decide) (by decide) (hadv (phaseIn_of_mem hp (by decide)))
  | invert | candidate | noCandidate | fullWindow | syncMatch | crcZero | descr | extract =>
    exact countOk_goto (by decide) (by decide) (hle (not_phaseIn hp (by decide)))

/-! ### The invariant -/

theorem State.Effect.inv {s t : State} {i : Instr} (h : s.Effect i t) (hp : s.phase = encode i) (hI : s.Inv) :
    t.Inv := by
  obtain ⟨hstorage, hcontrol, hlaunch, hpos, hat, hcount⟩ := hI
  exact ⟨h.storageOk hstorage, h.controlOk hcontrol, h.launchOk hp hlaunch, h.positionsOk hp hlaunch.1 hpos,
    h.attemptOk hp hat, h.countOk hp hpos hcount⟩

/-- The invariant does not look at the ports or the free-value counter. -/
theorem State.Inv.endEdge {s : State} (hI : s.Inv) : s.endEdge.Inv := hI

/-- In IDLE and DONE the invariant ties the buffer to no register. -/
theorem State.Inv.afterWrite {s : State} (hI : s.Inv) (hb : s.busy = false)
    (ha : s.pins.hbAddr < byteCount s.nbitsMax) : s.afterWrite.Inv := by
  obtain ⟨hstorage, hcontrol, ⟨hn, -⟩, ⟨hcur, hcand, -⟩, -, hcount⟩ := hI
  have hb' : s.afterWrite.busy = false := hb
  obtain ⟨i, hi, hp⟩ := exists_wait_of_not_busy hb'
  have hlist : i ∉ attemptOps ∧ i ∉ afterLength := by obtain rfl | rfl := hi <;> decide
  exact ⟨afterWrite_storageOk hstorage ha, hcontrol, ⟨hn, fun h => by simp [hb'] at h⟩,
    ⟨hcur, hcand, fun h => absurd h (not_phaseIn hp hlist.1)⟩, attemptOk_of_not_afterLength hp hlist.2, hcount⟩

theorem State.Inv.hostPort {s u : State} (hI : s.Inv) (h : hostPort s = .next u) : u.Inv := by
  obtain rfl | ⟨-, hb, -, ha, rfl⟩ := hostPort_eq_next h
  · exact hI
  · exact hI.afterWrite hb ha

theorem applyReset_inv {s : State} (hs : s.storageOk) : s.applyReset.Inv :=
  ⟨applyReset_storageOk hs, ⟨rfl, Nat.zero_le _⟩, ⟨Nat.zero_le _, fun h => absurd h (by simp [State.busy])⟩,
    ⟨.inl rfl, .inl rfl, fun h => absurd h (not_phaseIn (i := .idle) rfl (by decide))⟩,
    attemptOk_of_not_afterLength (i := .idle) rfl (by decide),
    countOk_of_le_cursor (i := .idle) rfl (by decide) (by decide) (Nat.le_refl 0)⟩

theorem hostPort_phase {s u : State} (h : hostPort s = .next u) : u.phase = s.phase := by
  obtain rfl | ⟨-, -, -, -, rfl⟩ := hostPort_eq_next h
  · rfl
  · rfl

/-- Settles O27: a reset leaves the reset state when there was nothing in the buffer. -/
theorem resetMeetsTheInvariant : Obligations.ResetMeetsTheInvariant := by
  unfold Obligations.ResetMeetsTheInvariant
  have hempty : State.reset.storageOk :=
    ⟨Memory.wf_nil, by simp [State.reset], List.Pairwise.nil, by simp [State.reset]⟩
  exact applyReset_inv hempty

/-- Settles O28: reset gives an idle block; otherwise the host port and then the selected operation keep each clause
(`State.Effect.inv`). -/
theorem everyStepKeepsTheInvariant : Obligations.EveryStepKeepsTheInvariant := by
  unfold Obligations.EveryStepKeepsTheInvariant
  intro s t hI h
  cases hr : s.pins.rst with
  | true =>
    obtain rfl : s.applyReset.endEdge = t := Host.Outcome.next.inj ((step_of_reset hr).symm.trans h)
    exact (applyReset_inv hI.1).endEdge
  | false =>
    obtain ⟨i, u, v, hp, hu, hv, rfl⟩ := step_effect hr h
    exact (hv.inv ((hostPort_phase hu).trans hp) (hI.hostPort hu)).endEdge

/-! ### The widths, rule R13 -/

theorem lt_two_pow_wPos_of_lt {n m : Nat} (h : n < m + 160) : n < 2 ^ Config.wPos m :=
  h.trans Nat.lt_log2_self

theorem State.Inv.two_mul_eventCount_le {s : State} (hI : s.Inv) :
    2 * s.eventCount ≤ s.cand + 2 ∨ 2 * s.eventCount ≤ s.cursor := by
  obtain ⟨-, -, -, -, -, hadv, hle, -⟩ := hI
  by_cases h : s.phaseIn [.advance]
  · exact .inl (hadv h)
  · exact .inr (hle h)

/-- Settles O29: the invariant bounds every position by `NBITS_MAX + 159`, and `W_POS` bits hold that. -/
theorem positionsNeverOverflow : Obligations.PositionsNeverOverflow := by
  unfold Obligations.PositionsNeverOverflow
  refine ⟨fun s hI => ?_, fun n => ⟨Nat.lt_log2_self, fun w hw => ?_⟩⟩
  · have hcount := hI.two_mul_eventCount_le
    obtain ⟨-, -, ⟨hn, -⟩, ⟨hcur, hcand, -⟩, -, -⟩ := hI
    refine ⟨?_, ?_, ?_, ?_, ?_, fun buf start p hb hf => ?_⟩
    · exact lt_two_pow_wPos_of_lt (by omega)
    · exact lt_two_pow_wPos_of_lt (by omega)
    · exact lt_two_pow_wPos_of_lt (by omega)
    · exact lt_two_pow_wPos_of_lt (by omega)
    · exact lt_two_pow_wPos_of_lt (by omega)
    · obtain ⟨-, hm, -⟩ := (find_eq_some _ _ _).1 hf
      obtain ⟨hin, -⟩ := (matchesAt_iff_patternAt hb p).1 hm
      exact lt_two_pow_wPos_of_lt (by omega)
  · exact (Nat.log2_lt (by omega)).2 hw

/-! ### Progress -/

/-- The selector is legal. -/
theorem State.Inv.exists_phase {s : State} (hI : s.Inv) : ∃ i, s.phase = encode i := by
  obtain ⟨-, ⟨hwf, -⟩, -⟩ := hI
  cases hd : decode s.phase with
  | ok i => exact ⟨i, (encode_of_decode hd).symm⟩
  | error e =>
    obtain ⟨p⟩ := e
    have hres : ∀ p q : Phase, decode p = .error (.reservedPhase q) → Phase.wf p = false := by decide
    simp [hres _ _ hd] at hwf

/-- Of the busy operations only INVERT, SCAN and MDEC can stop, on a bit that the invariant says is there. -/
theorem exec_progress_of_busy {s : State} {i : Instr} (hp : s.phase = encode i) (hI : s.Inv) (hb : s.busy = true) :
    ∃ t, exec i s = .next t := by
  obtain ⟨-, -, ⟨-, hwritten⟩, -⟩ := hI
  obtain ⟨hw, -⟩ := hwritten hb
  obtain ⟨buf, hbuf⟩ := State.exists_buffer (s.readable_iff_written.2 hw)
  obtain ⟨hi, hd⟩ := not_wait_of_busy hp hb
  cases i with
  | idle => exact absurd rfl hi
  | done => exact absurd rfl hd
  | invert => exact ⟨_, exec_invert_of_written hw⟩
  | scan =>
    by_cases hf : ∃ p, find buf s.cursor = some p ∧ p + 80 ≤ s.nbits
    · obtain ⟨p, hf, hp⟩ := hf
      exact ⟨_, exec_scan_of_candidate hbuf hf hp⟩
    · simp only [not_exists, not_and, Nat.not_le] at hf
      exact ⟨_, exec_scan_of_no_candidate hbuf hf⟩
  | mdec =>
    by_cases hlt : (manchester buf (s.cand + 16)).1 < 72
    · exact ⟨_, exec_mdec_of_short hbuf rfl hlt⟩
    · have hle : (manchester buf (s.cand + 16)).1 ≤ 72 := decodePairs_length_le _ _
      exact ⟨_, exec_mdec_of_full hbuf (Prod.ext (Nat.le_antisymm hle (Nat.le_of_not_lt hlt)) rfl)⟩
  | syncchk =>
    cases hs : syncOk s.win with
    | true => exact ⟨_, exec_syncchk_of_syncOk hs⟩
    | false => exact ⟨_, exec_syncchk_of_not_syncOk hs⟩
  | crcchk =>
    by_cases hc : crc16 (crcSpan s.win) = 0#16
    · exact ⟨_, exec_crcchk_of_crc_eq_zero hc⟩
    · exact ⟨_, exec_crcchk_of_crc_ne_zero hc⟩
  | descr | extract | emit | advance => exact ⟨_, rfl⟩

theorem step_progress_of_busy {s : State} (hI : s.Inv) (hb : s.busy = true) (hr : s.pins.rst = false) :
    ∃ t, step s = .next t := by
  obtain ⟨i, hp⟩ := hI.exists_phase
  obtain ⟨t, ht⟩ := exec_progress_of_busy hp hI hb
  exact ⟨t.endEdge, by rw [step_of_hostPort hr hp (hostPort_of_busy hb), ht, andThen_next]⟩

/-- Outside an event the ports decide: a START that is well formed, a write inside the storage, or a wait. -/
theorem step_progress_of_portsOk {s : State} (hb : s.busy = false) (hr : s.pins.rst = false) (hports : s.portsOk) :
    ∃ t, step s = .next t := by
  obtain ⟨hstart, hwrite⟩ := hports
  have run {u : State} (hport : hostPort s = .next s) (hwait : awaitStart s = .next u) : ∃ t, step s = .next t :=
    ⟨u.endEdge, by rw [step_of_not_busy hr hb hport, hwait, andThen_next]⟩
  cases hs : s.pins.start with
  | true =>
    obtain ⟨hn, hloaded⟩ := hstart hs
    exact run (hostPort_of_start hs) (awaitStart_of_loaded hs hn ((s.loaded_iff _).2 hloaded))
  | false =>
    cases hw : s.pins.hbWe with
    | true => exact ⟨_, step_of_write hr hb hs hw (hwrite hw)⟩
    | false => exact run (hostPort_of_no_write hw) (awaitStart_of_no_start hs)

/-- Settles O30: reset always answers; a busy block progresses by the invariant, an idle one by its ports. -/
theorem noOperationCanStop : Obligations.NoOperationCanStop := by
  unfold Obligations.NoOperationCanStop
  intro s hI hcase
  cases hr : s.pins.rst with
  | true => exact ⟨_, step_of_reset hr⟩
  | false =>
    cases hb : s.busy with
    | true => exact step_progress_of_busy hI hb hr
    | false =>
      have hports : s.portsOk := by simpa [hr, hb] using hcase
      exact step_progress_of_portsOk hb hr hports

/-! ### The order of the tests, rule R166 -/

/-- Settles O36: the invariant holds what the tests before the rejecting one established. -/
theorem rejectionsKeepTheirPriority : Obligations.RejectionsKeepTheirPriority := by
  unfold Obligations.RejectionsKeepTheirPriority
  intro s t hI hr h ht
  obtain ⟨-, -, -, -, ⟨hlength, hsync, -⟩, -⟩ := hI
  refine ⟨fun hp => ?_, fun hp => ?_, fun hp => ?_⟩
  · obtain ⟨v, hv, rfl⟩ := step_effect_of_phase hr hp (by decide) (by decide) h
    obtain ⟨hlen, -⟩ := hlength (phaseIn_of_mem hp (by decide))
    cases hv with
    | wait hi | start hi => simp at hi
    | crcZero => simp at ht
    | crcNonzero hc => exact ⟨rfl, hlen, hsync (phaseIn_of_mem hp (by decide)), hc, rfl⟩
  · obtain ⟨v, hv, rfl⟩ := step_effect_of_phase hr hp (by decide) (by decide) h
    obtain ⟨hlen, -⟩ := hlength (phaseIn_of_mem hp (by decide))
    cases hv with
    | wait hi | start hi => simp at hi
    | syncMatch => simp at ht
    | syncDiffer hs => exact ⟨rfl, hlen, hs⟩
  · obtain ⟨v, hv, rfl⟩ := step_effect_of_phase hr hp (by decide) (by decide) h
    cases hv with
    | wait hi | start hi => simp at hi
    | fullWindow => simp at ht
    | shortWindow _ _ hlt => exact ⟨rfl, hlt⟩

end Sys2Proof.Machine
end

section
/-! PROOFS. The CRC (`44_integrity_checker.md`): the loop is linear and loses nothing, so the field is determined by the
payload (rule R117) and a flipped bit shows (rule R118); and it is division by the generator polynomial (rule R115). -/

namespace Sys2Proof.Machine

/-! ### The shifts of the register -/

theorem crcShift_zero : crcShift 0#16 = 0#16 := by decide

theorem crcShift_of_msb {r : BitVec 16} (h : r.msb = true) : crcShift r = r <<< 1 ^^^ Config.crcPoly := if_pos h

theorem crcShift_of_not_msb {r : BitVec 16} (h : r.msb = false) : crcShift r = r <<< 1 := by
  simp [crcShift, h]

/-- A shift is linear over GF(2): the bits shifted out add, and so do the polynomials they bring in. -/
theorem crcShift_xor (a b : BitVec 16) : crcShift (a ^^^ b) = crcShift a ^^^ crcShift b := by
  have hshift : (a ^^^ b) <<< 1 = a <<< 1 ^^^ b <<< 1 := BitVec.shiftLeft_xor_distrib ..
  have hmsb : (a ^^^ b).msb = (a.msb ^^ b.msb) := BitVec.msb_xor
  cases ha : a.msb with
  | false =>
    cases hb : b.msb with
    | false => rw [crcShift_of_not_msb (by simp [hmsb, ha, hb]), crcShift_of_not_msb ha, crcShift_of_not_msb hb, hshift]
    | true =>
      rw [crcShift_of_msb (by simp [hmsb, ha, hb]), crcShift_of_not_msb ha, crcShift_of_msb hb, hshift,
        BitVec.xor_assoc]
  | true =>
    cases hb : b.msb with
    | false =>
      rw [crcShift_of_msb (by simp [hmsb, ha, hb]), crcShift_of_msb ha, crcShift_of_not_msb hb, hshift]
      ac_rfl
    | true =>
      have hcancel : Config.crcPoly ^^^ Config.crcPoly = 0#16 := BitVec.xor_self
      calc crcShift (a ^^^ b)
          = a <<< 1 ^^^ b <<< 1 ^^^ (Config.crcPoly ^^^ Config.crcPoly) := by
            rw [crcShift_of_not_msb (by simp [hmsb, ha, hb]), hshift, hcancel, BitVec.xor_zero]
        _ = crcShift a ^^^ crcShift b := by rw [crcShift_of_msb ha, crcShift_of_msb hb]; ac_rfl

/-- A shift loses nothing: the polynomial it brings in for a one shifted out sets bit 0. -/
theorem crcShift_eq_zero_iff (r : BitVec 16) : crcShift r = 0#16 ↔ r = 0#16 := by
  refine ⟨fun h => ?_, fun h => h ▸ crcShift_zero⟩
  cases hm : r.msb with
  | true =>
    have hbit : (r <<< 1 ^^^ Config.crcPoly).getLsbD 0 = true := by
      have hpoly : Config.crcPoly.getLsbD 0 = true := by decide
      rw [BitVec.getLsbD_xor, hpoly]
      simp
    rw [← crcShift_of_msb hm, h] at hbit
    simp at hbit
  | false =>
    rw [crcShift_of_not_msb hm] at h
    refine BitVec.eq_of_getLsbD_eq fun i hi => ?_
    by_cases h15 : i = 15
    · subst h15
      simpa [BitVec.msb_eq_getLsbD_last] using hm
    · have hbit : (r <<< 1).getLsbD (i + 1) = false := by rw [h, BitVec.getLsbD_zero]
      simpa [hi, show i + 1 < 16 by omega] using hbit

/-- `n` shifts of the register. -/
abbrev crcShifts (n : Nat) (r : BitVec 16) : BitVec 16 := Nat.repeat crcShift n r

theorem crcShifts_succ (n : Nat) (r : BitVec 16) : crcShifts (n + 1) r = crcShift (crcShifts n r) := rfl

theorem crcShifts_xor (n : Nat) (a b : BitVec 16) : crcShifts n (a ^^^ b) = crcShifts n a ^^^ crcShifts n b := by
  induction n with
  | zero => rfl
  | succ n ih => simp only [crcShifts_succ, ih, crcShift_xor]

theorem crcShifts_eq_zero_iff (n : Nat) (r : BitVec 16) : crcShifts n r = 0#16 ↔ r = 0#16 := by
  induction n with
  | zero => rfl
  | succ n ih => rw [crcShifts_succ, crcShift_eq_zero_iff, ih]

/-- A byte in the low half moves up through eight shifts without a one leaving the register. -/
theorem crcShifts_of_byte (b : Byte) (k : Nat) (hk : k ≤ 8) :
    crcShifts k (b.zeroExtend 16) = b.zeroExtend 16 <<< k := by
  induction k with
  | zero => simp [crcShifts, Nat.repeat]
  | succ k ih =>
    have hm : (b.zeroExtend 16 <<< k).msb = false := by
      rw [BitVec.msb_eq_getLsbD_last, BitVec.getLsbD_shiftLeft, BitVec.getLsbD_setWidth,
        BitVec.getLsbD_of_ge b (16 - 1 - k) (by omega)]
      simp
    rw [crcShifts_succ, ih (by omega), crcShift_of_not_msb hm, ← BitVec.shiftLeft_add]

/-! ### The field, rule R117 -/

theorem crc16_append (bs cs : List Byte) : crc16 (bs ++ cs) = cs.foldl crcByte (crc16 bs) := List.foldl_append

theorem zeroExtend_shiftLeft_xor_zeroExtend (hi lo : Byte) :
    hi.zeroExtend 16 <<< 8 ^^^ lo.zeroExtend 16 = hi ++ lo := by
  refine BitVec.eq_of_getLsbD_eq fun i hi16 => ?_
  rw [BitVec.getLsbD_append, BitVec.getLsbD_xor, BitVec.getLsbD_shiftLeft, BitVec.getLsbD_setWidth,
    BitVec.getLsbD_setWidth]
  by_cases h8 : i < 8
  · simp [h8, hi16]
  · simp [h8, hi16, BitVec.getLsbD_of_ge lo i (by omega), show i - 8 < 16 by omega]

/-- Two bytes enter the register as one big-endian word and pass through all its 16 bits. -/
theorem crcByte_crcByte (r : BitVec 16) (hi lo : Byte) :
    crcByte (crcByte r hi) lo = crcShifts 8 (crcShifts 8 (r ^^^ (hi ++ lo))) :=
  calc crcByte (crcByte r hi) lo
      = crcShifts 8 (crcShifts 8 (r ^^^ hi.zeroExtend 16 <<< 8) ^^^ crcShifts 8 (lo.zeroExtend 16)) := by
        rw [crcShifts_of_byte lo 8 (Nat.le_refl 8)]; rfl
    _ = crcShifts 8 (crcShifts 8 (r ^^^ (hi ++ lo))) := by
        rw [← crcShifts_xor, BitVec.xor_assoc, zeroExtend_shiftLeft_xor_zeroExtend]

theorem crc16_append_field_eq_zero_iff (bs : List Byte) (hi lo : Byte) :
    crc16 (bs ++ [hi, lo]) = 0#16 ↔ hi ++ lo = crc16 bs := by
  have hlast : crc16 (bs ++ [hi, lo]) = crcByte (crcByte (crc16 bs) hi) lo := crc16_append bs [hi, lo]
  rw [hlast, crcByte_crcByte, crcShifts_eq_zero_iff, crcShifts_eq_zero_iff, BitVec.xor_eq_zero_iff]
  exact eq_comm

/-- Settles O44: the CRC of a payload with its field is 16 shifts of payload CRC against field. -/
theorem crcFieldMustBeTheCrcOfThePayload : Obligations.CrcFieldMustBeTheCrcOfThePayload := by
  unfold Obligations.CrcFieldMustBeTheCrcOfThePayload
  exact ⟨fun t hi lo => crc16_append_field_eq_zero_iff t.bytes hi lo,
    fun w => crc16_append_field_eq_zero_iff (scrambledPayload w).bytes (windowByte w 7) (windowByte w 8)⟩

/-! ### A flipped bit, rule R118 -/

theorem crcByte_xor (r r' : BitVec 16) (b b' : Byte) :
    crcByte (r ^^^ r') (b ^^^ b') = crcByte r b ^^^ crcByte r' b' := by
  have hentry : (b ^^^ b').zeroExtend 16 <<< 8 = b.zeroExtend 16 <<< 8 ^^^ b'.zeroExtend 16 <<< 8 := by
    rw [← BitVec.shiftLeft_xor_distrib, ← BitVec.setWidth_xor]
  calc crcByte (r ^^^ r') (b ^^^ b')
      = crcShifts 8 ((r ^^^ b.zeroExtend 16 <<< 8) ^^^ (r' ^^^ b'.zeroExtend 16 <<< 8)) := by
        rw [crcByte, hentry]
        congr 1
        ac_rfl
    _ = crcByte r b ^^^ crcByte r' b' := crcShifts_xor 8 _ _

theorem foldl_crcByte_xor (bs bs' : List Byte) (hlen : bs.length = bs'.length) (r r' : BitVec 16) :
    (List.zipWith (· ^^^ ·) bs bs').foldl crcByte (r ^^^ r') = bs.foldl crcByte r ^^^ bs'.foldl crcByte r' := by
  induction bs generalizing bs' r r' with
  | nil =>
    obtain rfl : bs' = [] := List.length_eq_zero_iff.1 hlen.symm
    rfl
  | cons b bs ih =>
    cases bs' with
    | nil => cases hlen
    | cons b' bs' =>
      rw [List.zipWith_cons_cons, List.foldl_cons, crcByte_xor, ih bs' (Nat.succ.inj hlen)]
      rfl

/-- The CRC starts at zero, so it is linear on byte strings of one length. -/
theorem crc16_zipWith_xor {bs bs' : List Byte} (hlen : bs.length = bs'.length) :
    crc16 (List.zipWith (· ^^^ ·) bs bs') = crc16 bs ^^^ crc16 bs' := foldl_crcByte_xor bs bs' hlen 0#16 0#16

theorem windowByte_xor (w e : Window) (j : Nat) : windowByte (w ^^^ e) j = windowByte w j ^^^ windowByte e j :=
  BitVec.extractLsb'_xor

theorem crcSpan_xor (w e : Window) : crcSpan (w ^^^ e) = List.zipWith (· ^^^ ·) (crcSpan w) (crcSpan e) := by
  simp only [crcSpan_eq, windowByte_xor, List.zipWith_cons_cons, List.zipWith_nil_left]

theorem crc16_crcSpan_xor (w e : Window) : crc16 (crcSpan (w ^^^ e)) = crc16 (crcSpan w) ^^^ crc16 (crcSpan e) :=
  (congrArg crc16 (crcSpan_xor w e)).trans (crc16_zipWith_xor rfl)

/-- The CRC of each of the 56 single-bit strings of seven bytes. -/
theorem crc16_crcSpan_single_bit_ne_zero :
    ∀ k < 72, 16 ≤ k → crc16 (crcSpan (1#72 <<< (71 - k))) ≠ 0#16 := by decide +kernel

/-- Settles O45: by linearity the CRC of the flipped window is that of the flipped bit alone. -/
theorem singleBitFlipIsAlwaysRejected : Obligations.SingleBitFlipIsAlwaysRejected := by
  unfold Obligations.SingleBitFlipIsAlwaysRejected
  intro s k hc hk hk'
  have hflip : crc16 (crcSpan (s.win ^^^ 1#72 <<< (71 - k))) = crc16 (crcSpan (1#72 <<< (71 - k))) := by
    rw [crc16_crcSpan_xor, hc, BitVec.zero_xor]
  have hne : crc16 (crcSpan (s.win ^^^ 1#72 <<< (71 - k))) ≠ 0#16 :=
    hflip ▸ crc16_crcSpan_single_bit_ne_zero k hk' hk
  exact ⟨_, hne, exec_crcchk_of_crc_ne_zero (s := { s with win := s.win ^^^ 1#72 <<< (71 - k) }) hne⟩

/-! ### The polynomial reading, rule R115 -/

open Polynomial Finset

/-- A bit as a coefficient. -/
noncomputable def bitPoly (b : Bool) : (ZMod 2)[X] := if b then 1 else 0

/-- A bit string as a polynomial, the first bit the highest coefficient (rule R115). -/
noncomputable def bitsPoly (l : List Bool) : (ZMod 2)[X] := l.foldl (fun p b => p * X + bitPoly b) 0

/-- A word as a polynomial, bit `i` the coefficient of `x^i`. -/
noncomputable def wordPoly {n : Nat} (v : BitVec n) : (ZMod 2)[X] := ∑ i ∈ range n, bitPoly (v.getLsbD i) * X ^ i

/-- The generator `x^16 + x^15 + x^2 + 1`. -/
noncomputable def crcGenerator : (ZMod 2)[X] := X ^ 16 + X ^ 15 + X ^ 2 + 1

@[simp] theorem bitPoly_true : bitPoly true = 1 := rfl
@[simp] theorem bitPoly_false : bitPoly false = 0 := rfl

theorem bitPoly_xor (a b : Bool) : bitPoly (a ^^ b) = bitPoly a + bitPoly b := by
  cases a <;> cases b <;> simp [CharTwo.add_self_eq_zero]

theorem foldl_bitsPoly (l : List Bool) (p : (ZMod 2)[X]) :
    l.foldl (fun p b => p * X + bitPoly b) p = p * X ^ l.length + bitsPoly l := by
  induction l generalizing p with
  | nil => simp [bitsPoly]
  | cons b l ih =>
    have hcons : bitsPoly (b :: l) = (0 * X + bitPoly b) * X ^ l.length + bitsPoly l := ih _
    rw [List.foldl_cons, ih, hcons, List.length_cons, pow_succ]
    ring

theorem bitsPoly_append (l l' : List Bool) : bitsPoly (l ++ l') = bitsPoly l * X ^ l'.length + bitsPoly l' :=
  List.foldl_append.trans (foldl_bitsPoly l' _)

/-- A bit string given by its positions, as a sum of powers. -/
theorem bitsPoly_map_range (f : Nat → Bool) (n : Nat) :
    bitsPoly ((List.range n).map f) = ∑ i ∈ range n, bitPoly (f (n - 1 - i)) * X ^ i := by
  induction n with
  | zero => rfl
  | succ n ih =>
    have hlast : bitsPoly [f n] = bitPoly (f n) := by simp [bitsPoly]
    rw [List.range_succ, List.map_append, List.map_singleton, bitsPoly_append, ih, hlast, sum_range_succ',
      List.length_singleton, sum_mul]
    congr 1
    · refine sum_congr rfl fun i _ => ?_
      rw [show n + 1 - 1 - (i + 1) = n - 1 - i by omega, pow_one, pow_succ, mul_assoc]
    · simp

theorem bitsPoly_byteBits (b : Byte) : bitsPoly (byteBits b) = wordPoly b := by
  rw [byteBits, bitsPoly_map_range, wordPoly]
  refine sum_congr rfl fun i hi => ?_
  have hi : i < 8 := mem_range.1 hi
  rw [byteBit, show 7 - (8 - 1 - i) = i by omega]

theorem bitsPoly_msbFirst {n : Nat} (v : BitVec n) : bitsPoly ((List.range n).map v.getMsbD) = wordPoly v := by
  rw [bitsPoly_map_range, wordPoly]
  refine sum_congr rfl fun i hi => ?_
  have hi : i < n := mem_range.1 hi
  rw [BitVec.getMsbD_eq_getLsbD, show n - 1 - (n - 1 - i) = i by omega, decide_eq_true (by omega), Bool.true_and]

theorem wordPoly_xor {n : Nat} (a b : BitVec n) : wordPoly (a ^^^ b) = wordPoly a + wordPoly b := by
  simp only [wordPoly, BitVec.getLsbD_xor, bitPoly_xor, add_mul, sum_add_distrib]

/-- A byte entering at the top of the register is its polynomial times `x^8`. -/
theorem wordPoly_entry (b : Byte) : wordPoly (b.zeroExtend 16 <<< 8) = wordPoly b * X ^ 8 := by
  have hlow : ∑ i ∈ range 8, bitPoly ((b.zeroExtend 16 <<< 8).getLsbD i) * X ^ i = 0 := sum_eq_zero fun i hi => by
    simp [mem_range.1 hi]
  have hhigh : ∀ i ∈ range 8, bitPoly ((b.zeroExtend 16 <<< 8).getLsbD (8 + i)) * X ^ (8 + i) =
      bitPoly (b.getLsbD i) * X ^ i * X ^ 8 := fun i hi => by
    have hi : i < 8 := mem_range.1 hi
    rw [BitVec.getLsbD_shiftLeft, BitVec.getLsbD_setWidth, Nat.add_sub_cancel_left, pow_add]
    simp [show 8 + i < 16 by omega, show i < 16 by omega]
    ring
  calc wordPoly (b.zeroExtend 16 <<< 8)
      = 0 + ∑ i ∈ range 8, bitPoly (b.getLsbD i) * X ^ i * X ^ 8 := by
        rw [← hlow, ← sum_congr rfl hhigh]; exact sum_range_add _ 8 8
    _ = wordPoly b * X ^ 8 := by rw [zero_add, wordPoly, sum_mul]

/-- Shifting the register left is multiplying by `x`, but for the bit shifted out. -/
theorem wordPoly_shiftLeft_one (r : BitVec 16) : wordPoly (r <<< 1) + bitPoly r.msb * X ^ 16 = wordPoly r * X := by
  have hmove : ∀ i ∈ range 15, bitPoly ((r <<< 1).getLsbD (i + 1)) * X ^ (i + 1) = bitPoly (r.getLsbD i) * X ^ i * X :=
    fun i hi => by
      have hi : i < 15 := mem_range.1 hi
      rw [BitVec.getLsbD_shiftLeft, pow_succ, mul_assoc]
      simp [show i + 1 < 16 by omega]
  calc wordPoly (r <<< 1) + bitPoly r.msb * X ^ 16
      = ∑ i ∈ range 15, bitPoly (r.getLsbD i) * X ^ i * X + bitPoly (r.getLsbD 15) * X ^ 15 * X := by
        rw [← sum_congr rfl hmove, wordPoly, sum_range_succ', BitVec.msb_eq_getLsbD_last]
        simp
        ring
    _ = wordPoly r * X := by
        rw [wordPoly, sum_mul]; exact (sum_range_succ (fun i => bitPoly (r.getLsbD i) * X ^ i * X) 15).symm

theorem wordPoly_crcPoly : wordPoly Config.crcPoly = X ^ 15 + X ^ 2 + 1 := by
  have hbits : ∀ i ∈ range 16, Config.crcPoly.getLsbD i = decide (i = 15 ∨ i = 2 ∨ i = 0) := by decide
  rw [wordPoly, sum_congr rfl fun i hi => by rw [hbits i hi]]
  simp [sum_range_succ]
  ring

/-- One shift of the register multiplies by `x` and subtracts the generator when a one was shifted out. -/
theorem wordPoly_crcShift (r : BitVec 16) :
    wordPoly r * X = bitPoly r.msb * crcGenerator + wordPoly (crcShift r) := by
  rw [← wordPoly_shiftLeft_one]
  cases hm : r.msb with
  | false => rw [crcShift_of_not_msb hm]; simp
  | true =>
    have htwice : wordPoly Config.crcPoly + wordPoly Config.crcPoly = 0 := CharTwo.add_self_eq_zero _
    rw [crcShift_of_msb hm, wordPoly_xor, bitPoly_true, crcGenerator]
    linear_combination (-1 : (ZMod 2)[X]) * htwice + wordPoly_crcPoly

/-- The residue modulo the generator. -/
noncomputable def crcResidue : (ZMod 2)[X] →+* AdjoinRoot crcGenerator := AdjoinRoot.mk crcGenerator

theorem crcResidue_generator : crcResidue crcGenerator = 0 := AdjoinRoot.mk_self

theorem crcResidue_crcShift (r : BitVec 16) : crcResidue (wordPoly (crcShift r)) = crcResidue (wordPoly r * X) := by
  rw [wordPoly_crcShift, map_add, map_mul, crcResidue_generator, mul_zero, zero_add]

theorem crcResidue_crcShifts (n : Nat) (r : BitVec 16) :
    crcResidue (wordPoly (crcShifts n r)) = crcResidue (wordPoly r * X ^ n) := by
  induction n with
  | zero => simp [crcShifts, Nat.repeat]
  | succ n ih => rw [crcShifts_succ, crcResidue_crcShift, map_mul, ih, ← map_mul, mul_assoc, ← pow_succ]

theorem crcResidue_crcByte (r : BitVec 16) (b : Byte) :
    crcResidue (wordPoly (crcByte r b)) = crcResidue ((wordPoly r + wordPoly b * X ^ 8) * X ^ 8) := by
  rw [← wordPoly_entry, ← wordPoly_xor]
  exact crcResidue_crcShifts 8 _

theorem bitsOfBytes_append_singleton (bs : List Byte) (b : Byte) :
    bitsOfBytes (bs ++ [b]) = bitsOfBytes bs ++ byteBits b := by
  simp [bitsOfBytes]

theorem byteBits_length (b : Byte) : (byteBits b).length = 8 := rfl

/-- Byte by byte, the register holds the residue of what has entered times `x^16`. -/
theorem crcResidue_crc16 (bs : List Byte) :
    crcResidue (bitsPoly (bitsOfBytes bs) * X ^ 16) = crcResidue (wordPoly (crc16 bs)) := by
  induction bs using List.reverseRecOn with
  | nil =>
    have hzero : wordPoly (crc16 []) = 0 := sum_eq_zero fun i _ => by simp [crc16, Config.crcInit]
    simp [hzero, bitsOfBytes, bitsPoly]
  | append_singleton bs b ih =>
    have hlast : crc16 (bs ++ [b]) = crcByte (crc16 bs) b := crc16_append bs [b]
    calc crcResidue (bitsPoly (bitsOfBytes (bs ++ [b])) * X ^ 16)
        = crcResidue (bitsPoly (bitsOfBytes bs) * X ^ 16 * X ^ 8 + wordPoly b * X ^ 8 * X ^ 8) := by
          rw [bitsOfBytes_append_singleton, bitsPoly_append, bitsPoly_byteBits, byteBits_length]
          ring_nf
      _ = crcResidue (wordPoly (crc16 bs) * X ^ 8 + wordPoly b * X ^ 8 * X ^ 8) := by
          rw [map_add, map_mul, ih, ← map_mul, ← map_add]
      _ = crcResidue (wordPoly (crc16 (bs ++ [b]))) := by rw [hlast, crcResidue_crcByte, add_mul]

/-- Settles O43: equal residues differ by a multiple of the generator. -/
theorem crcIsThePolynomialRemainder : Obligations.CrcIsThePolynomialRemainder := by
  unfold Obligations.CrcIsThePolynomialRemainder
  intro poly bytes
  obtain ⟨q, hq⟩ := AdjoinRoot.mk_eq_mk.1 (crcResidue_crc16 bytes)
  rw [← bitsPoly_msbFirst] at hq
  exact ⟨q, (sub_eq_iff_eq_add.1 hq).trans (by rw [mul_comm]; rfl)⟩

end Sys2Proof.Machine
end

section
/-! PROOFS. The descrambler in closed form (`45_descrambler.md` section 3), and the text, temperature and pressure of a
reading (`46_field_extractor.md` section 3). -/

namespace Sys2Proof.Machine

/-! ### The cascade, rules R127 and R128 -/

theorem xor_xor_xor_cancel (a b c : Byte) : a ^^^ b ^^^ (c ^^^ b) = a ^^^ c :=
  calc a ^^^ b ^^^ (c ^^^ b) = a ^^^ c ^^^ (b ^^^ b) := by ac_rfl
    _ = a ^^^ c := by rw [BitVec.xor_self, BitVec.xor_zero]

theorem xor_cancel_outer (a b : Byte) : a ^^^ (b ^^^ a) = b := by
  rw [BitVec.xor_comm b, ← BitVec.xor_assoc, BitVec.xor_self, BitVec.zero_xor]

theorem xor_cancel_right (a b : Byte) : a ^^^ b ^^^ b = a := by
  rw [BitVec.xor_assoc, BitVec.xor_self, BitVec.xor_zero]

theorem descramble_eq (t : Payload) :
    descramble t = ⟨t.d4, t.d1 ^^^ t.d4, t.d2 ^^^ t.d4, t.d3 ^^^ t.d4, t.d4 ^^^ t.d0⟩ := by
  simp only [descramble, descramblePass1, descramblePass2, xor_xor_xor_cancel, xor_cancel_outer]

/-- Two turns of the cascade are the forward scrambler. -/
theorem descramble_descramble (t : Payload) : descramble (descramble t) = scramble t := by
  have hkey : ∀ a : Byte, a ^^^ t.d4 ^^^ (t.d4 ^^^ t.d0) = a ^^^ t.d0 := fun a => by
    rw [BitVec.xor_comm t.d4, xor_xor_xor_cancel]
  have hlast : t.d4 ^^^ t.d0 ^^^ t.d4 = t.d0 := by rw [BitVec.xor_comm t.d4, xor_cancel_right]
  simp only [descramble_eq, scramble, hkey, hlast]

theorem descramble_scramble (t : Payload) : descramble (scramble t) = t := by
  simp only [descramble_eq, scramble, xor_cancel_right, xor_cancel_outer]

theorem scramble_descramble (t : Payload) : scramble (descramble t) = t := by
  rw [← descramble_descramble, descramble_descramble t, descramble_scramble]

/-- The scrambler moves every payload but those with `t[0] = t[4] = 0`. -/
theorem scramble_eq_self_iff (t : Payload) : scramble t = t ↔ t.d0 = 0#8 ∧ t.d4 = 0#8 := by
  constructor
  · intro h
    have h4 : t.d0 = t.d4 := congrArg Payload.d4 h
    have h0 : t.d4 ^^^ t.d0 = t.d0 := congrArg Payload.d0 h
    rw [h4, BitVec.xor_self] at h0
    exact ⟨h4.trans h0.symm, h0.symm⟩
  · rintro ⟨h0, h4⟩
    cases t
    simp_all [scramble]

/-- Settles O46: what pass 1 mixes in, pass 2 cancels. -/
theorem descrambleHasTheClosedForm : Obligations.DescrambleHasTheClosedForm := by
  unfold Obligations.DescrambleHasTheClosedForm
  exact descramble_eq

/-- Settles O47: the scrambler is the cascade's square (`descramble_descramble`) and its inverse. -/
theorem descrambleHasOrderThree : Obligations.DescrambleHasOrderThree := by
  unfold Obligations.DescrambleHasOrderThree
  intro t
  refine ⟨?_, descramble_scramble t, scramble_descramble t, (descramble_descramble t).symm, ?_⟩
  · rw [descramble_descramble t, descramble_scramble]
  · rw [descramble_descramble]
    exact scramble_eq_self_iff t

/-! ### The id's text, rule R137 -/

/-- The sixteen characters of lowercase hexadecimal. -/
def hexDigits : List Byte :=
  [0x30#8, 0x31#8, 0x32#8, 0x33#8, 0x34#8, 0x35#8, 0x36#8, 0x37#8, 0x38#8, 0x39#8, 0x61#8, 0x62#8, 0x63#8, 0x64#8,
    0x65#8, 0x66#8]

theorem nibbleAscii_eq_hexDigit : ∀ n : BitVec 4, some (nibbleAscii n) = hexDigits[n.toNat]? := by decide

/-- Nibble `k` of a word is its `k`-th hexadecimal digit. -/
theorem toNat_nibble (id : BitVec 16) (k : Nat) : (id.extractLsb' (4 * k) 4).toNat = id.toNat / 16 ^ k % 16 := by
  rw [BitVec.extractLsb'_toNat, Nat.shiftRight_eq_div_pow, pow_mul]
  norm_num

/-- Byte `k` of the text is the character of nibble `k`. -/
theorem extractLsb'_idAscii (id : BitVec 16) {k : Nat} (hk : k < 4) :
    (idAscii id).extractLsb' (8 * k) 8 = nibbleAscii (id.extractLsb' (4 * k) 4) := by
  unfold idAscii
  match k, hk with
  | 0, _ => exact BitVec.extractLsb'_append_eq_right
  | 1, _ => rw [BitVec.extractLsb'_append_eq_of_le (by decide)]; exact BitVec.extractLsb'_append_eq_right
  | 2, _ =>
    rw [BitVec.extractLsb'_append_eq_of_le (by decide), BitVec.extractLsb'_append_eq_of_le (by decide)]
    exact BitVec.extractLsb'_append_eq_right
  | 3, _ =>
    rw [BitVec.extractLsb'_append_eq_of_le (by decide), BitVec.extractLsb'_append_eq_of_le (by decide)]
    exact BitVec.extractLsb'_append_eq_left

/-- Settles O48: each byte is one nibble's character, and the characters are the table. -/
theorem idTextIsFourLowercaseHexCharacters : Obligations.IdTextIsFourLowercaseHexCharacters := by
  unfold Obligations.IdTextIsFourLowercaseHexCharacters
  intro id k hk
  rw [extractLsb'_idAscii id hk, nibbleAscii_eq_hexDigit, toNat_nibble]
  rfl

/-! ### Temperature and pressure, rules R139 and R140 -/

/-- The 9 bits hold every value of a byte minus 55. -/
theorem extractFields_temperature (d : Payload) : (extractFields d).temperature = (d.d2.toNat : Int) - 55 := by
  have hlt := d.d2.isLt
  rw [Reading.temperature, extractFields_tempC_eq_ofInt, BitVec.toInt_ofInt]
  exact Int.bmod_eq_of_le (by omega) (by omega)

/-- Settles O50: the temperature is exact because it fits 9 bits, the pressure because nothing divides it. -/
theorem temperatureAndPressureAreExact : Obligations.TemperatureAndPressureAreExact := by
  unfold Obligations.TemperatureAndPressureAreExact
  intro d
  have hlt := d.d2.isLt
  rw [extractFields_temperature]
  exact ⟨rfl, by omega, by omega, rfl⟩

end Sys2Proof.Machine
end

section
/-! PROOFS. The Manchester code (`42_manchester_decoder.md`): decoding a transmission (rule R102), and one raw bit
flipped inside a window (rule R101 (e)). -/

namespace Sys2Proof.Machine

/-! ### Byte strings as bit strings -/

theorem bitsOfBytes_cons (b : Byte) (bs : List Byte) : bitsOfBytes (b :: bs) = byteBits b ++ bitsOfBytes bs := rfl

theorem byteBits_getElem? (b : Byte) {k : Nat} (hk : k < 8) : (byteBits b)[k]? = some (byteBit b k) := by
  simp [byteBits, hk]

theorem bitsOfBytes_length (bs : List Byte) : (bitsOfBytes bs).length = 8 * bs.length := by
  induction bs with
  | nil => rfl
  | cons b bs ih =>
    rw [bitsOfBytes_cons, List.length_append, ih, byteBits_length, List.length_cons]
    omega

/-- Place `k` of byte `j` (`20_memory.md` rule R42). -/
theorem bitsOfBytes_getElem? (bs : List Byte) (j : Nat) {k : Nat} (hk : k < 8) :
    (bitsOfBytes bs)[8 * j + k]? = bs[j]?.map fun b => byteBit b k := by
  induction bs generalizing j with
  | nil => simp [bitsOfBytes]
  | cons b bs ih =>
    rw [bitsOfBytes_cons]
    cases j with
    | zero =>
      rw [List.getElem?_append_left (by simpa [byteBits_length] using hk), Nat.mul_zero, Nat.zero_add,
        byteBits_getElem? b hk]
      rfl
    | succ j =>
      rw [List.getElem?_append_right (by rw [byteBits_length]; omega), byteBits_length,
        show 8 * (j + 1) + k - 8 = 8 * j + k by omega, ih j, List.getElem?_cons_succ]

/-- The bytes of a window made of nine bytes are the nine bytes. -/
theorem windowByte_windowOf_bitsOfBytes {bs : List Byte} (hbs : bs.length = 9) {j : Nat} {b : Byte}
    (hb : bs[j]? = some b) : windowByte (windowOf (bitsOfBytes bs)) j = b := by
  obtain ⟨hj, -⟩ := List.getElem?_eq_some_iff.1 hb
  have hlen : (bitsOfBytes bs).length ≤ 72 := by rw [bitsOfBytes_length]; omega
  refine byte_ext fun k hk => ?_
  rw [byteBit_windowByte _ _ _ (by omega) hk, windowBit_windowOf _ hlen _ (by omega), List.getD_eq_getElem?_getD,
    bitsOfBytes_getElem? bs j hk, hb]
  rfl

/-! ### Decoding what the encoder made -/

theorem mencBits_cons (b : Bool) (l : List Bool) : mencBits (b :: l) = (!b) :: b :: mencBits l := rfl

theorem mencBits_append (l l' : List Bool) : mencBits (l ++ l') = mencBits l ++ mencBits l' := List.flatMap_append

theorem mencBits_length (l : List Bool) : (mencBits l).length = 2 * l.length := by
  induction l with
  | nil => rfl
  | cons b l ih =>
    rw [mencBits_cons]
    simp only [List.length_cons, ih]
    omega

/-- Each pair of the encoder is a transition and codes its bit. -/
theorem decodePairs_mencBits (l : List Bool) : decodePairs l.length (mencBits l) = l := by
  induction l with
  | nil => rfl
  | cons b l ih =>
    have hne : (!b) ≠ b := by cases b <;> decide
    rw [mencBits_cons, List.length_cons, decodePairs, if_neg hne, pairBit_eq, ih]

/-- Behind the preamble byte a transmission is the coded frame. -/
theorem transmission_eq (frame : List Byte) :
    transmission frame = mencBits (byteBits 0xFF#8) ++ mencBits (bitsOfBytes frame) :=
  mencBits_append (byteBits 0xFF#8) (bitsOfBytes frame)

theorem transmission_length (frame : List Byte) : (transmission frame).length = 16 + 16 * frame.length := by
  rw [transmission_eq, List.length_append, mencBits_length, mencBits_length, byteBits_length, bitsOfBytes_length]
  omega

theorem manchester_transmission {frame : List Byte} (hf : frame.length = 9) :
    manchester (transmission frame) 16 = (72, windowOf (bitsOfBytes frame)) := by
  have hlen : (bitsOfBytes frame).length = 72 := by rw [bitsOfBytes_length, hf]
  have hdrop : (transmission frame).drop 16 = mencBits (bitsOfBytes frame) := by
    rw [transmission_eq]; exact List.drop_left (l₁ := mencBits (byteBits 0xFF#8))
  have hbits : decodedBits (transmission frame) 16 = bitsOfBytes frame := by
    rw [decodedBits, hdrop, show Config.winBits = (bitsOfBytes frame).length from hlen.symm, decodePairs_mencBits]
  rw [manchester, hbits, hlen]

/-- Settles O41: the decoder answers the frame's bits (`manchester_transmission`), whose bytes are the frame. -/
theorem decoderInvertsTheEncoder : Obligations.DecoderInvertsTheEncoder := by
  unfold Obligations.DecoderInvertsTheEncoder
  intro frame hf
  rw [manchester_transmission hf]
  refine ⟨by rw [transmission_length, hf], rfl, fun j hj => ?_⟩
  have hb : frame[j]? = some frame[j] := List.getElem?_eq_getElem _
  rw [windowByte_windowOf_bitsOfBytes hf hb, hb]

/-! ### A flipped raw bit -/

theorem getElem?_modify_not_ne {buf : List Bool} {q i : Nat} (h : q ≠ i) : (buf.modify q not)[i]? = buf[i]? :=
  List.getElem?_modify_ne _ _ h

/-- Flipping one bit of a transition pair leaves two equal bits. -/
theorem flipped_pair_eq {buf : List Bool} {a q : Nat} {b : Bool} (hpair : bitsCode buf a b) (hq : q = a ∨ q = a + 1) :
    (buf.modify q not)[a]? = (buf.modify q not)[a + 1]? := by
  obtain ⟨hfirst, hsecond⟩ := hpair
  obtain rfl | rfl := hq
  · rw [List.getElem?_modify_eq, getElem?_modify_not_ne (by omega), hfirst, hsecond]
    simp
  · rw [List.getElem?_modify_eq, getElem?_modify_not_ne (by omega), hfirst, hsecond]
    simp

/-- Settles O42: the pairs in front of the flipped one decode as before, and the flipped one has no transition. -/
theorem rawBitFlipStopsTheDecode : Obligations.RawBitFlipStopsTheDecode := by
  unfold Obligations.RawBitFlipStopsTheDecode
  intro buf s q hfull hs hq
  have hlen : (decodedBits buf s).length = 72 := hfull
  have hpair : ∀ i, (hi : i < 72) → bitsCode buf (s + 2 * i) ((decodedBits buf s)[i]'(hlen ▸ hi)) := fun i hi =>
    bitsCode_of_decodedBits (List.getElem?_eq_getElem _)
  have htake : ((decodedBits buf s).take ((q - s) / 2)).length = (q - s) / 2 := by
    rw [List.length_take, hlen]; omega
  have hbits : decodedBits (buf.modify q not) s = (decodedBits buf s).take ((q - s) / 2) := by
    refine decodedBits_eq (by omega) (fun i hi => ?_) (.inr (.inr ?_))
    · rw [htake] at hi
      rw [List.getElem_take, bitsCode, getElem?_modify_not_ne (by omega), getElem?_modify_not_ne (by omega)]
      exact hpair i (by omega)
    · rw [htake]
      exact flipped_pair_eq (hpair ((q - s) / 2) (by omega)) (by omega)
  calc (manchester (buf.modify q not) s).1
      = ((decodedBits buf s).take ((q - s) / 2)).length := by rw [manchester, hbits]
    _ = (q - s) / 2 := htake

end Sys2Proof.Machine
end

section
/-! PROOFS. What an event computes (`00_scope.md` rule R5): the attempts of `process` are the candidates in order
(`41_preamble_scanner.md` rule R94), and its readings are the valid frames. -/

namespace Sys2Proof.Machine

/-! ### The candidates -/

theorem mem_candidates {buf : List Bool} {p : Nat} :
    p ∈ candidates buf ↔ matchesAt buf p = true ∧ p + 80 ≤ buf.length := by
  simp only [candidates, List.mem_filter, List.mem_range, Bool.and_eq_true, Config.minRemain]
  exact ⟨fun ⟨_, hm, hp⟩ => ⟨hm, of_decide_eq_true hp⟩, fun ⟨hm, hp⟩ => ⟨by omega, hm, decide_eq_true hp⟩⟩

theorem candidates_pairwise (buf : List Bool) : (candidates buf).Pairwise (· < ·) :=
  List.pairwise_lt_range.filter _

/-- The candidates at or after `c`, in increasing order. -/
def candidatesFrom (buf : List Bool) (c : Nat) : List Nat := (candidates buf).filter fun p => decide (c ≤ p)

theorem mem_candidatesFrom {buf : List Bool} {c p : Nat} :
    p ∈ candidatesFrom buf c ↔ c ≤ p ∧ matchesAt buf p = true ∧ p + 80 ≤ buf.length := by
  rw [candidatesFrom, List.mem_filter, mem_candidates, decide_eq_true_eq, and_comm]

theorem candidatesFrom_pairwise (buf : List Bool) (c : Nat) : (candidatesFrom buf c).Pairwise (· < ·) :=
  (candidates_pairwise buf).filter _

theorem candidatesFrom_zero (buf : List Bool) : candidatesFrom buf 0 = candidates buf := by
  simp [candidatesFrom]

/-- When the lowest match leaves too few bits, no later one is a candidate. -/
theorem candidatesFrom_eq_nil {buf : List Bool} {c : Nat} (h : ∀ p, find buf c = some p → buf.length < p + 80) :
    candidatesFrom buf c = [] := by
  refine List.eq_nil_iff_forall_not_mem.2 fun q hq => ?_
  obtain ⟨hle, hm, hin⟩ := mem_candidatesFrom.1 hq
  cases hf : find buf c with
  | none => simp [(find_eq_none _ _).1 hf q hle] at hm
  | some p =>
    have hshort := h p hf
    obtain ⟨-, -, hlow⟩ := (find_eq_some _ _ _).1 hf
    have hpq : p ≤ q := by
      by_contra hlt
      simp [hlow q hle (by omega)] at hm
    omega

/-- The lowest match is the first candidate, and the next one is at least 2 bits on, because the pattern does not
overlap itself at a shift of 1 (rule R93). -/
theorem candidatesFrom_eq_cons {buf : List Bool} {c p : Nat} (hf : find buf c = some p) (hp : p + 80 ≤ buf.length) :
    candidatesFrom buf c = p :: candidatesFrom buf (p + 2) := by
  obtain ⟨hle, hm, hlow⟩ := (find_eq_some _ _ _).1 hf
  have hnext : matchesAt buf (p + 1) = false :=
    patternOverlapsItselfOnlyAtTwentyTwo buf p 1 hm (by decide) (by decide) (by decide)
  have hsorted : (p :: candidatesFrom buf (p + 2)).Pairwise (· < ·) := by
    refine List.pairwise_cons.2 ⟨fun q hq => ?_, candidatesFrom_pairwise buf (p + 2)⟩
    obtain ⟨hpq, -⟩ := mem_candidatesFrom.1 hq
    omega
  refine (candidatesFrom_pairwise buf c).eq_of_mem_iff hsorted fun q => ?_
  rw [List.mem_cons, mem_candidatesFrom, mem_candidatesFrom]
  constructor
  · rintro ⟨hcq, hmq, hq⟩
    by_cases hpq : q = p
    · exact .inl hpq
    · refine .inr ⟨?_, hmq, hq⟩
      have hge : ¬ q < p := fun hlt => by simp [hlow q hcq hlt] at hmq
      have hne : q ≠ p + 1 := fun h => by simp [h, hnext] at hmq
      omega
  · rintro (rfl | ⟨hpq, hmq, hq⟩)
    · exact ⟨hle, hm, hp⟩
    · exact ⟨by omega, hmq, hq⟩

/-- Too few bits are left behind `c` for a candidate. -/
theorem candidatesFrom_eq_nil_of_lt {buf : List Bool} {c : Nat} (h : buf.length < c + 80) :
    candidatesFrom buf c = [] :=
  candidatesFrom_eq_nil fun p hf => by
    obtain ⟨hle, -, -⟩ := (find_eq_some _ _ _).1 hf
    omega

/-! ### The attempts of `process` -/

/-- What the attempts at the positions of a list add to a result, in the order of the list. -/
def addAttempts (buf : List Bool) (r : EventResult) (ps : List Nat) : EventResult :=
  ps.foldl (fun r p => r.add (attemptAt buf p)) r

@[simp] theorem addAttempts_nil (buf : List Bool) (r : EventResult) : addAttempts buf r [] = r := rfl
@[simp] theorem addAttempts_cons (buf : List Bool) (r : EventResult) (p : Nat) (ps : List Nat) :
    addAttempts buf r (p :: ps) = addAttempts buf (r.add (attemptAt buf p)) ps := rfl

/-- The loop with enough fuel makes the attempts at the candidates from its cursor on; every turn moves the cursor at
least 2 bits. -/
theorem processLoop_eq (buf : List Bool) (fuel : Nat) : ∀ (c : Nat) (r : EventResult), buf.length < c + 80 + 2 * fuel →
    processLoop buf fuel c r = addAttempts buf r (candidatesFrom buf c) := by
  induction fuel with
  | zero =>
    intro c r h
    rw [candidatesFrom_eq_nil_of_lt (by omega)]
    rfl
  | succ fuel ih =>
    intro c r h
    unfold processLoop
    split
    · next hf => rw [candidatesFrom_eq_nil (by simp [hf]), addAttempts_nil]
    · next p hf =>
      obtain ⟨hle, -, -⟩ := (find_eq_some _ _ _).1 hf
      by_cases hp : p + 80 ≤ buf.length
      · refine (if_pos hp).trans ?_
        rw [candidatesFrom_eq_cons hf hp, addAttempts_cons]
        exact ih (p + 2) _ (by omega)
      · refine (if_neg hp).trans ?_
        rw [candidatesFrom_eq_nil (by simp only [hf, Option.some.injEq]; omega), addAttempts_nil]

theorem process_eq (loaded : List Bool) :
    process loaded = addAttempts (loaded.map not) .start (candidates (loaded.map not)) := by
  rw [process, processLoop_eq _ _ _ _ (by rw [List.length_map]; omega), candidatesFrom_zero]

theorem candidatesFrom_length_le (buf : List Bool) (n : Nat) : ∀ c, buf.length < c + 80 + 2 * n →
    (candidatesFrom buf c).length ≤ n := by
  induction n with
  | zero =>
    intro c h
    rw [candidatesFrom_eq_nil_of_lt (by omega)]
    exact Nat.le_refl 0
  | succ n ih =>
    intro c h
    by_cases hf : ∃ p, find buf c = some p ∧ p + 80 ≤ buf.length
    · obtain ⟨p, hf, hp⟩ := hf
      obtain ⟨hle, -, -⟩ := (find_eq_some _ _ _).1 hf
      rw [candidatesFrom_eq_cons hf hp, List.length_cons]
      exact Nat.succ_le_succ (ih (p + 2) (by omega))
    · simp only [not_exists, not_and, Nat.not_le] at hf
      rw [candidatesFrom_eq_nil hf]
      exact Nat.zero_le _

/-- The bound of rule R186 is enough for every candidate. -/
theorem lt_maxAttempts (n : Nat) : n < 80 + 2 * maxAttempts n := by
  unfold maxAttempts Config.minRemain
  split <;> omega

/-- Settles O53: `processLoop` with its fuel is the fold over the candidates (`processLoop_eq`), which are at least 2
bits apart. -/
theorem everyCandidateIsTriedOnce : Obligations.EveryCandidateIsTriedOnce := by
  unfold Obligations.EveryCandidateIsTriedOnce
  intro loaded
  refine ⟨process_eq loaded, candidates_pairwise _, ?_, fun p => ?_⟩
  · rw [← candidatesFrom_zero]
    refine candidatesFrom_length_le _ _ 0 ?_
    have hbound := lt_maxAttempts loaded.length
    rw [List.length_map]
    omega
  · rw [mem_candidates, matchesAt_iff, List.length_map, and_comm]
    rfl

/-! ### One attempt -/

theorem attemptAt_of_short {buf : List Bool} {p n : Nat} {w : Window} (hm : manchester buf (p + 16) = (n, w))
    (hn : n < 72) : attemptAt buf p = .error (.sanityFail (stopCause buf.length (p + 16) n)) := by
  simp [attemptAt, Config.winOffset, Config.winBits, hm, hn]

theorem attemptAt_of_not_syncOk {buf : List Bool} {p : Nat} {w : Window} (hm : manchester buf (p + 16) = (72, w))
    (hs : syncOk w = false) : attemptAt buf p = .error (.sanityFail .sync) := by
  simp [attemptAt, Config.winOffset, Config.winBits, hm, hs]

theorem attemptAt_of_crc_ne_zero {buf : List Bool} {p : Nat} {w : Window} (hm : manchester buf (p + 16) = (72, w))
    (hs : syncOk w = true) (hc : crc16 (crcSpan w) ≠ 0#16) :
    attemptAt buf p = .error (.integrityFail (crc16 (crcSpan w))) := by
  simp [attemptAt, Config.winOffset, Config.winBits, hm, hs, hc]

theorem attemptAt_of_valid {buf : List Bool} {p : Nat} {w : Window} (hm : manchester buf (p + 16) = (72, w))
    (hs : syncOk w = true) (hc : crc16 (crcSpan w) = 0#16) :
    attemptAt buf p = .ok (extractFields (descramble (scrambledPayload w))) := by
  simp [attemptAt, Config.winOffset, Config.winBits, hm, hs, hc]

/-- An attempt answers a reading exactly when it decodes a full window that passes both tests. -/
theorem attemptAt_eq_ok_iff (buf : List Bool) (p : Nat) (x : Reading) :
    attemptAt buf p = .ok x ↔ ∃ w, manchester buf (p + 16) = (72, w) ∧ syncOk w = true ∧ crc16 (crcSpan w) = 0#16 ∧
      x = extractFields (descramble (scrambledPayload w)) := by
  constructor
  · intro h
    rcases hm : manchester buf (p + 16) with ⟨n, w⟩
    have hle : n ≤ 72 := by
      have hlen : (manchester buf (p + 16)).1 ≤ 72 := decodePairs_length_le _ _
      rwa [hm] at hlen
    by_cases hn : n < 72
    · simp [attemptAt_of_short hm hn] at h
    obtain rfl : n = 72 := by omega
    cases hs : syncOk w with
    | false => simp [attemptAt_of_not_syncOk hm hs] at h
    | true =>
      by_cases hc : crc16 (crcSpan w) = 0#16
      · rw [attemptAt_of_valid hm hs hc] at h
        exact ⟨w, rfl, hs, hc, (Except.ok.inj h).symm⟩
      · simp [attemptAt_of_crc_ne_zero hm hs hc] at h
  · rintro ⟨w, hm, hs, hc, rfl⟩
    exact attemptAt_of_valid hm hs hc

/-! ### The readings -/

/-- The decoder answers a full window exactly when 72 pairs code it. -/
theorem manchester_eq_full_iff (buf : List Bool) (s : Nat) (w : Window) :
    manchester buf s = (72, w) ↔ ∀ i < 72, bitsCode buf (s + 2 * i) (w.getMsbD i) := by
  constructor
  · intro h i hi
    have hlen : (decodedBits buf s).length = 72 := congrArg Prod.fst h
    have hw : windowOf (decodedBits buf s) = w := congrArg Prod.snd h
    have hbit : (decodedBits buf s)[i]? = some (w.getMsbD i) := by
      have hwin : windowBit w i = (decodedBits buf s).getD i false := by
        rw [← hw, windowBit_windowOf _ hlen.le i hi]
      rw [← windowBit, hwin, List.getD_eq_getElem _ _ (hlen ▸ hi)]
      exact List.getElem?_eq_getElem _
    exact bitsCode_of_decodedBits hbit
  · intro h
    exact manchester_eq (Nat.le_refl 72) h (fun i hi hle => absurd hle (Nat.not_le.2 hi)) (.inl rfl)

/-- The 72 pairs of a full window lie inside the buffer. -/
theorem le_length_of_full_window {buf : List Bool} {s : Nat} {w : Window}
    (h : ∀ i < 72, bitsCode buf (s + 2 * i) (w.getMsbD i)) : s + 144 ≤ buf.length := by
  obtain ⟨-, hlast⟩ := h 71 (by decide)
  obtain ⟨hin, -⟩ := List.getElem?_eq_some_iff.1 hlast
  omega

/-- What the attempts leave as readings: the accepted ones, in order. -/
theorem addAttempts_readings (buf : List Bool) (ps : List Nat) : ∀ r : EventResult,
    (addAttempts buf r ps).readings = r.readings ++ ps.filterMap fun p => (attemptAt buf p).toOption := by
  induction ps with
  | nil => simp
  | cons p ps ih =>
    intro r
    rw [addAttempts_cons, ih, List.filterMap_cons]
    cases attemptAt buf p with
    | error e => rfl
    | ok x => simp [EventResult.add, Except.toOption]

theorem process_readings (loaded : List Bool) : (process loaded).readings =
    (candidates (loaded.map not)).filterMap fun p => (attemptAt (loaded.map not) p).toOption := by
  rw [process_eq, addAttempts_readings]
  rfl

theorem toOption_eq_some_iff (a : Except Rejection Reading) (x : Reading) : a.toOption = some x ↔ a = .ok x := by
  cases a <;> simp [Except.toOption]

/-- Settles O54: a reading is an accepted attempt at a candidate, and an accepted attempt is a valid frame. -/
theorem readingsAreThoseOfTheValidFrames : Obligations.ReadingsAreThoseOfTheValidFrames := by
  unfold Obligations.ReadingsAreThoseOfTheValidFrames
  intro loaded x
  simp only [process_readings, List.mem_filterMap, toOption_eq_some_iff, attemptAt_eq_ok_iff, mem_candidates,
    matchesAt_iff, manchester_eq_full_iff, syncOk_iff_bytes, List.length_map]
  constructor
  · rintro ⟨p, ⟨hpat, -⟩, w, hpairs, ⟨h0, h1⟩, hc, hx⟩
    have hin : p + 16 + 144 ≤ loaded.length := by simpa using le_length_of_full_window hpairs
    exact ⟨p, w, by omega, hpat, hpairs, h0, h1, hc, hx⟩
  · rintro ⟨p, w, hin, hpat, hpairs, h0, h1, hc, hx⟩
    exact ⟨p, ⟨hpat, by omega⟩, w, hpairs, ⟨h0, h1⟩, hc, hx⟩

end Sys2Proof.Machine
end

section
/-! PROOFS. The machine on one reception event (`40_sequencer.md` section 5, `70_reset_and_hazards.md` section 4): the
operations of an attempt do what `attemptAt` says, and the search makes the attempts of `process`, within the bound. -/

namespace Sys2Proof.Machine

/-! ### Runs -/

theorem steps_succ_of_step {s t : State} (h : step s = .next t) (k : Nat) : steps (k + 1) s = steps k t := by
  rw [steps, h, andThen_next]

theorem steps_add {s t : State} {j : Nat} (h : steps j s = .next t) (k : Nat) : steps (j + k) s = steps k t := by
  induction j generalizing s with
  | zero =>
    obtain rfl : s = t := Host.Outcome.next.inj h
    rw [Nat.zero_add]
  | succ j ih =>
    obtain ⟨u, hu, ht⟩ := andThen_eq_next.1 h
    rw [Nat.succ_add, steps_succ_of_step hu, ih ht]

/-- Within `k` steps the block comes to a state with `P`, and is busy at every step before. -/
def State.Reaches (s : State) (k : Nat) (P : State → Prop) : Prop :=
  ∃ j t, j ≤ k ∧ steps j s = .next t ∧ P t ∧ ∀ i < j, ∃ u, steps i s = .next u ∧ u.busy = true

theorem State.Reaches.here {s : State} {k : Nat} {P : State → Prop} (h : P s) : s.Reaches k P :=
  ⟨0, s, Nat.zero_le k, rfl, h, fun i hi => absurd hi (Nat.not_lt_zero i)⟩

theorem State.Reaches.of_step {s t : State} {k : Nat} {P : State → Prop} (hb : s.busy = true) (hs : step s = .next t)
    (h : t.Reaches k P) : s.Reaches (k + 1) P := by
  obtain ⟨j, u, hj, hu, hP, hbusy⟩ := h
  refine ⟨j + 1, u, Nat.succ_le_succ hj, (steps_succ_of_step hs j).trans hu, hP, fun i hi => ?_⟩
  cases i with
  | zero => exact ⟨s, rfl, hb⟩
  | succ i => rw [steps_succ_of_step hs]; exact hbusy i (Nat.lt_of_succ_lt_succ hi)

theorem State.Reaches.bind {s : State} {k k' : Nat} {P Q : State → Prop} (h : s.Reaches k Q)
    (hQ : ∀ t, Q t → t.Reaches k' P) : s.Reaches (k + k') P := by
  obtain ⟨j, t, hj, ht, hq, hbusy⟩ := h
  obtain ⟨j', u, hj', hu, hP, hbusy'⟩ := hQ t hq
  refine ⟨j + j', u, Nat.add_le_add hj hj', (steps_add ht j').trans hu, hP, fun i hi => ?_⟩
  by_cases hij : i < j
  · exact hbusy i hij
  · obtain ⟨i, rfl⟩ := Nat.exists_eq_add_of_le (Nat.le_of_not_lt hij)
    rw [steps_add ht]
    exact hbusy' i (by omega)

theorem State.Reaches.mono {s : State} {k k' : Nat} {P : State → Prop} (h : s.Reaches k P) (hk : k ≤ k') :
    s.Reaches k' P := by
  obtain ⟨j, t, hj, rest⟩ := h
  exact ⟨j, t, hj.trans hk, rest⟩

/-! ### Inside an event -/

/-- No input to come asks for a reset. -/
def State.NoReset (s : State) : Prop := ∀ p ∈ s.inputs, p.rst = false

theorem State.NoReset.pins {s : State} (h : s.NoReset) : s.pins.rst = false := by
  unfold State.pins
  cases hi : s.inputs with
  | nil => rfl
  | cons p ps => exact h p (by simp [hi])

theorem State.NoReset.tail {s : State} (h : s.NoReset) : ∀ p ∈ s.inputs.tail, p.rst = false :=
  fun p hp => h p (List.mem_of_mem_tail hp)

/-- The event runs on the buffer `m` with `n` valid bits; beyond the sink's list `base` it has the result `r` so far. -/
structure State.During (s : State) (m : Memory) (n : Nat) (base : List Reading) (r : EventResult) : Prop where
  buf : s.buf = m
  nbits : s.nbits = n
  noReset : s.NoReset
  emitted : s.emitted = base ++ r.readings
  eventCount : s.eventCount = r.readings.length
  lastReason : s.lastReason = r.reason

section
variable {s t : State} {m : Memory} {n : Nat} {base : List Reading} {r : EventResult}

theorem State.During.buffer? (hd : s.During m n base r) : s.buffer? = Memory.readBits m 0 n := by
  rw [State.buffer?, hd.buf, hd.nbits]

/-- A busy operation is one step; only its own writes and the ports move on. -/
theorem State.During.reaches_of_exec {i : Instr} {k : Nat} {P : State → Prop} (hd : s.During m n base r)
    (hp : s.phase = encode i) (hi : i ≠ .idle) (hdone : i ≠ .done) (hx : exec i s = .next t)
    (h : t.endEdge.Reaches k P) : s.Reaches (k + 1) P := by
  have hb : s.busy = true := busy_of_phase hp hi hdone
  refine .of_step hb ?_ h
  rw [step_of_hostPort hd.noReset.pins hp (hostPort_of_busy hb), hx, andThen_next]

/-- An operation that writes none of the event's results keeps them. -/
theorem State.During.keep (hd : s.During m n base r) (hbuf : t.buf = s.buf) (hn : t.nbits = s.nbits)
    (hin : t.inputs = s.inputs) (hem : t.emitted = s.emitted) (hec : t.eventCount = s.eventCount)
    (hlr : t.lastReason = s.lastReason) : t.endEdge.During m n base r :=
  ⟨hbuf.trans hd.buf, hn.trans hd.nbits, by rw [State.NoReset, State.endEdge_inputs, hin]; exact hd.noReset.tail,
    hem.trans hd.emitted, hec.trans hd.eventCount, hlr.trans hd.lastReason⟩

/-- A rejection is recorded as `process` records it (`60_exceptions.md` rule R164). -/
theorem State.During.reject (hd : s.During m n base r) (e : Rejection) (hbuf : t.buf = s.buf) (hn : t.nbits = s.nbits)
    (hin : t.inputs = s.inputs) (hem : t.emitted = s.emitted) (hec : t.eventCount = s.eventCount) :
    (t.raise e).endEdge.During m n base (r.add (.error e)) :=
  ⟨hbuf.trans hd.buf, hn.trans hd.nbits,
    by rw [State.NoReset, State.endEdge_inputs, State.raise_inputs, hin]; exact hd.noReset.tail,
    hem.trans hd.emitted, hec.trans hd.eventCount, rfl⟩

/-- EMIT adds the record to the result and to the sink (`47_output_emitter.md` rule R151). -/
theorem State.During.emit (hd : s.During m n base r) :
    ({ s.emitRecord s.rd with eventCount := s.eventCount + 1 }.goto .advance).endEdge.During m n base
      (r.add (.ok s.rd)) where
  buf := hd.buf
  nbits := hd.nbits
  noReset := hd.noReset.tail
  emitted := (congrArg (· ++ [s.rd]) hd.emitted).trans (List.append_assoc _ _ _)
  eventCount := by
    rw [State.endEdge_eventCount, State.goto_eventCount, hd.eventCount]
    exact (List.length_append (as := r.readings) (bs := [s.rd])).symm
  lastReason := hd.lastReason

/-! ### One attempt -/

/-- The search goes on 2 bits past the candidate `c`. -/
def State.SearchesFrom (t : State) (c : Nat) (m : Memory) (n : Nat) (base : List Reading) (r : EventResult) : Prop :=
  t.phase = encode .scan ∧ t.cursor = c + 2 ∧ t.During m n base r

theorem State.During.advance (hd : s.During m n base r) (hp : s.phase = encode .advance) (k : Nat) :
    s.Reaches (k + 1) fun t => t.SearchesFrom s.cand m n base r :=
  hd.reaches_of_exec hp (by decide) (by decide) rfl (.here ⟨rfl, rfl, hd.keep rfl rfl rfl rfl rfl rfl⟩)

/-- EXTRACT, EMIT, ADVANCE: the reading of `d` is added. -/
theorem State.During.extract (hd : s.During m n base r) (hp : s.phase = encode .extract) :
    s.Reaches 3 fun t => t.SearchesFrom s.cand m n base (r.add (.ok (extractFields s.d))) := by
  have hd' : (({ s with rd := extractFields s.d }.goto .emit).endEdge).During m n base r :=
    hd.keep rfl rfl rfl rfl rfl rfl
  have hemit := hd'.reaches_of_exec (i := .emit) rfl (by decide) (by decide) rfl (hd'.emit.advance rfl 0)
  exact hd.reaches_of_exec hp (by decide) (by decide) rfl hemit

/-- Behind the CRC test the attempt ends with the reading of the descrambled payload. -/
theorem State.During.accept (hd : s.During m n base r) (hp : s.phase = encode .descr) :
    s.Reaches 4 fun t =>
      t.SearchesFrom s.cand m n base (r.add (.ok (extractFields (descramble (scrambledPayload s.win))))) := by
  have hd' : (({ s with d := descramble (scrambledPayload s.win) }.goto .extract).endEdge).During m n base r :=
    hd.keep rfl rfl rfl rfl rfl rfl
  exact hd.reaches_of_exec hp (by decide) (by decide) rfl (hd'.extract rfl)

/-- Behind the sync test the CRC decides. -/
theorem State.During.checkCrc {buf : List Bool} {p : Nat} (hd : s.During m n base r) (hp : s.phase = encode .crcchk)
    (hm : manchester buf (p + 16) = (72, s.win)) (hs : syncOk s.win = true) :
    s.Reaches 5 fun t => t.SearchesFrom s.cand m n base (r.add (attemptAt buf p)) := by
  by_cases hc : crc16 (crcSpan s.win) = 0#16
  · rw [attemptAt_of_valid hm hs hc]
    have hd' : (({ s with crc := 0#16 }.goto .descr).endEdge).During m n base r := hd.keep rfl rfl rfl rfl rfl rfl
    exact hd.reaches_of_exec hp (by decide) (by decide) (exec_crcchk_of_crc_eq_zero hc) (hd'.accept rfl)
  · rw [attemptAt_of_crc_ne_zero hm hs hc]
    have hd' := hd.reject (t := { s with crc := crc16 (crcSpan s.win) }) (.integrityFail (crc16 (crcSpan s.win)))
      rfl rfl rfl rfl rfl
    exact hd.reaches_of_exec hp (by decide) (by decide) (exec_crcchk_of_crc_ne_zero hc) (hd'.advance rfl 3)

/-- Behind the length test the sync word decides. -/
theorem State.During.checkSync {buf : List Bool} {p : Nat} (hd : s.During m n base r) (hp : s.phase = encode .syncchk)
    (hm : manchester buf (p + 16) = (72, s.win)) :
    s.Reaches 6 fun t => t.SearchesFrom s.cand m n base (r.add (attemptAt buf p)) := by
  cases hs : syncOk s.win with
  | true =>
    have hd' : ((s.goto .crcchk).endEdge).During m n base r := hd.keep rfl rfl rfl rfl rfl rfl
    exact hd.reaches_of_exec hp (by decide) (by decide) (exec_syncchk_of_syncOk hs) (hd'.checkCrc rfl hm hs)
  | false =>
    rw [attemptAt_of_not_syncOk hm hs]
    have hd' := hd.reject (t := s) (.sanityFail .sync) rfl rfl rfl rfl rfl
    exact hd.reaches_of_exec hp (by decide) (by decide) (exec_syncchk_of_not_syncOk hs) (hd'.advance rfl 4)

/-- MDEC to ADVANCE: one attempt at the candidate, at most seven operations. -/
theorem State.During.attempt {buf : List Bool} (hd : s.During m n base r) (hp : s.phase = encode .mdec)
    (hbuf : s.buffer? = some buf) :
    s.Reaches 7 fun t => t.SearchesFrom s.cand m n base (r.add (attemptAt buf s.cand)) := by
  have hlen : buf.length = s.nbits := ((s.buffer?_eq_some_iff buf).1 hbuf).1
  have hle : (manchester buf (s.cand + 16)).1 ≤ 72 := decodePairs_length_le _ _
  rcases hm : manchester buf (s.cand + 16) with ⟨len, w⟩
  rw [hm] at hle
  by_cases hshort : len < 72
  · rw [attemptAt_of_short hm hshort, hlen]
    have hd' := hd.reject (t := { s with win := w, winLen := len })
      (.sanityFail (stopCause s.nbits (s.cand + 16) len)) rfl rfl rfl rfl rfl
    exact hd.reaches_of_exec hp (by decide) (by decide) (exec_mdec_of_short hbuf hm hshort) (hd'.advance rfl 5)
  · obtain rfl : len = 72 := Nat.le_antisymm hle (Nat.le_of_not_lt hshort)
    have hd' : (({ s with win := w, winLen := 72 }.goto .syncchk).endEdge).During m n base r :=
      hd.keep rfl rfl rfl rfl rfl rfl
    exact hd.reaches_of_exec hp (by decide) (by decide) (exec_mdec_of_full hbuf hm) (hd'.checkSync rfl hm)

/-! ### The search -/

/-- From SCAN the block makes the attempts at the candidates from its cursor on and goes to DONE; each turn takes at
most eight operations and moves the cursor at least 2 bits, so `f` turns are enough (`70_reset_and_hazards.md` rule R186). -/
theorem reaches_done_of_scan {m : Memory} {n : Nat} {base : List Reading} {buf : List Bool}
    (hbuf : Memory.readBits m 0 n = some buf) (f : Nat) : ∀ (s : State) (r : EventResult), s.During m n base r →
      s.phase = encode .scan → n < s.cursor + 80 + 2 * f →
      s.Reaches (8 * f + 1) fun t =>
        t.phase = encode .done ∧ t.During m n base (addAttempts buf r (candidatesFrom buf s.cursor)) := by
  have hlen : buf.length = n := Memory.readBits_length hbuf
  induction f with
  | zero =>
    intro s r hd hp hf
    rw [candidatesFrom_eq_nil_of_lt (by omega)]
    have hnone : ∀ p, find buf s.cursor = some p → s.nbits < p + 80 := fun p hfind => by
      obtain ⟨hle, -, -⟩ := (find_eq_some _ _ _).1 hfind
      rw [hd.nbits]
      omega
    exact hd.reaches_of_exec hp (by decide) (by decide) (exec_scan_of_no_candidate (hd.buffer?.trans hbuf) hnone)
      (.here ⟨rfl, hd.keep rfl rfl rfl rfl rfl rfl⟩)
  | succ f ih =>
    intro s r hd hp hf
    by_cases hfind : ∃ p, find buf s.cursor = some p ∧ p + 80 ≤ n
    · obtain ⟨p, hfind, hin⟩ := hfind
      obtain ⟨hle, -, -⟩ := (find_eq_some _ _ _).1 hfind
      rw [candidatesFrom_eq_cons hfind (hlen ▸ hin), addAttempts_cons]
      have hd' : (({ s with cand := p }.goto .mdec).endEdge).During m n base r := hd.keep rfl rfl rfl rfl rfl rfl
      have hattempt := hd'.attempt rfl (hd'.buffer?.trans hbuf)
      have hrest := hattempt.bind fun t ⟨htp, htc, htd⟩ => by
        have hnext := ih t _ htd htp (by rw [htc]; simp only [State.endEdge_cand, State.goto_cand]; omega)
        rw [htc] at hnext
        exact hnext
      have hscan := hd.reaches_of_exec hp (by decide) (by decide)
        (exec_scan_of_candidate (hd.buffer?.trans hbuf) hfind (hd.nbits ▸ hin)) hrest
      exact hscan.mono (by omega)
    · simp only [not_exists, not_and, Nat.not_le] at hfind
      rw [candidatesFrom_eq_nil (by rwa [hlen])]
      have hdone := hd.reaches_of_exec hp (by decide) (by decide)
        (exec_scan_of_no_candidate (hd.buffer?.trans hbuf) (by rwa [hd.nbits]))
        (.here (k := 0) (P := fun t => t.phase = encode .done ∧ t.During m n base r)
          ⟨rfl, hd.keep rfl rfl rfl rfl rfl rfl⟩)
      exact hdone.mono (by omega)

end

/-! ### The whole event -/

/-- The valid bits after INVERT are the complement of those before. -/
theorem readBits_invertBelow {m : Memory} {n : Nat} {l : List Bool} (h : Memory.readBits m 0 n = some l) :
    Memory.readBits (Memory.invertBelow m n) 0 n = some (l.map not) := by
  obtain ⟨hlen, hbit⟩ := (Memory.readBits_eq_some _ _ _ _).1 h
  refine (Memory.readBits_eq_some _ _ _ _).2 ⟨by rw [List.length_map, hlen], fun i hi => ?_⟩
  rw [Memory.bit?_invertBelow, hbit i hi, List.getElem?_map]
  simp [hi]

/-- From INVERT on: the inversion, then the search from position 0. -/
theorem reaches_done_of_invert {s : State} {m : Memory} {n : Nat} {base : List Reading} {loaded : List Bool}
    (hd : s.During m n base .start) (hp : s.phase = encode .invert) (hc : s.cursor = 0)
    (hload : Memory.readBits m 0 n = some loaded) :
    s.Reaches (8 * maxAttempts n + 2) fun t =>
      t.phase = encode .done ∧ t.During (Memory.invertBelow m n) n base (process loaded) := by
  have hlen : loaded.length = n := Memory.readBits_length hload
  have hw : Memory.written s.buf s.nbits = true := by
    rw [← State.buffer?_isSome, hd.buffer?, hload]
    rfl
  have hd' : (({ s with buf := Memory.invertBelow s.buf s.nbits }.goto .scan).endEdge).During
      (Memory.invertBelow m n) n base .start :=
    { hd with
      buf := by rw [State.endEdge_buf, State.goto_buf, hd.buf, hd.nbits]
      noReset := hd.noReset.tail }
  have hsearch := reaches_done_of_scan (readBits_invertBelow hload) (maxAttempts n) _ _ hd' rfl (by
    have hbound := lt_maxAttempts n
    omega)
  have hcursor : (({ s with buf := Memory.invertBelow s.buf s.nbits }.goto .scan).endEdge).cursor = 0 := hc
  rw [hcursor, candidatesFrom_zero, ← process_eq] at hsearch
  exact hd.reaches_of_exec hp (by decide) (by decide) (exec_invert_of_written hw) hsearch

/-- A well-formed START is one step, into INVERT with an empty result. -/
theorem step_of_wellFormed_start {s : State} (hr : s.NoReset) (hb : s.busy = false) (hs : s.pins.start = true)
    (hn : s.pins.nbitsIn ≤ s.nbitsMax) (hl : s.Loaded s.pins.nbitsIn) :
    step s = .next (s.beginEvent s.pins.nbitsIn).endEdge := by
  rw [step_of_not_busy hr.pins hb (hostPort_of_start hs), awaitStart_of_loaded hs hn hl, andThen_next]

theorem beginEvent_during {s : State} (hr : s.NoReset) (n : Nat) :
    (s.beginEvent n).endEdge.During s.buf n s.emitted .start where
  buf := rfl
  nbits := rfl
  noReset := hr.tail
  emitted := (List.append_nil _).symm
  eventCount := rfl
  lastReason := rfl

theorem loaded_of_readBits {s : State} {n : Nat} {l : List Bool} (h : Memory.readBits s.buf 0 n = some l)
    (hstale : ∀ a ∈ s.stale, n ≤ 8 * a) : s.Loaded n := by
  intro k hk
  obtain ⟨hlen, hbit⟩ := (Memory.readBits_eq_some _ _ _ _).1 h
  refine ⟨?_, fun hmem => ?_⟩
  · have hk' := hbit k hk
    rw [Nat.zero_add] at hk'
    rw [hk', List.getElem?_eq_getElem (hlen ▸ hk)]
    rfl
  · have hle := hstale _ hmem
    omega

/-- Settles O52: START, then `reaches_done_of_invert`; what INVERT left in the buffer stays to the end. -/
theorem eventComputesProcessAndEnds : Obligations.EventComputesProcessAndEnds := by
  unfold Obligations.EventComputesProcessAndEnds
  intro s loaded hb hs hr hn hload hstale
  have hstart := step_of_wellFormed_start hr hb hs hn (loaded_of_readBits hload hstale)
  obtain ⟨j, t, hj, ht, ⟨hp, hd⟩, hbusy⟩ := reaches_done_of_invert (beginEvent_during hr s.pins.nbitsIn) rfl rfl hload
  refine ⟨j + 1, t, Nat.succ_pos j, ?_, (steps_succ_of_step hstart j).trans ht, hp, fun i hi hij => ?_, hd.emitted,
    hd.eventCount, hd.lastReason, hd.nbits, ?_, fun i hi => ?_⟩
  · unfold maxOperations
    omega
  · obtain ⟨i, rfl⟩ := Nat.exists_eq_succ_of_ne_zero hi.ne'
    rw [steps_succ_of_step hstart]
    exact hbusy i (Nat.lt_of_succ_lt_succ hij)
  · rw [hd.buf, hd.nbits]
    exact readBits_invertBelow hload
  · rw [hd.buf, Memory.bit?_invertBelow]
    simp [Nat.not_lt.2 hi]

end Sys2Proof.Machine
end

section
/-! PROOFS. One transmission from end to end (`70_reset_and_hazards.md` rule R181): the host loads the bytes and raises
`start`, and the block reads the payload back exactly once. -/

namespace Sys2Proof.Machine

/-! ### The readings of a transmission -/

theorem extractLsb'_high_append_low (c : BitVec 16) : c.extractLsb' 8 8 ++ c.extractLsb' 0 8 = c :=
  (BitVec.extractLsb'_append_extractLsb'_eq_extractLsb' (start₁ := 0) (start₂ := 8) (len₁ := 8) rfl).trans
    BitVec.extractLsb'_eq_self

/-- The window a frame is decoded to. -/
def frameWindow (t : Payload) : Window := windowOf (bitsOfBytes (frameOf t))

theorem windowByte_frameWindow {t : Payload} {j : Nat} {b : Byte} (h : (frameOf t)[j]? = some b) :
    windowByte (frameWindow t) j = b := windowByte_windowOf_bitsOfBytes rfl h

theorem syncOk_frameWindow (t : Payload) : syncOk (frameWindow t) = true :=
  (syncOk_iff_bytes _).2 ⟨windowByte_frameWindow rfl, windowByte_frameWindow rfl⟩

theorem scrambledPayload_frameWindow (t : Payload) : scrambledPayload (frameWindow t) = t := by
  rw [scrambledPayload_eq, windowByte_frameWindow (b := t.d0) rfl, windowByte_frameWindow (b := t.d1) rfl,
    windowByte_frameWindow (b := t.d2) rfl, windowByte_frameWindow (b := t.d3) rfl,
    windowByte_frameWindow (b := t.d4) rfl]

theorem crcField_frameWindow (t : Payload) : crcField (frameWindow t) = crc16 t.bytes := by
  rw [crcField, windowByte_frameWindow (b := (crc16 t.bytes).extractLsb' 8 8) rfl,
    windowByte_frameWindow (b := (crc16 t.bytes).extractLsb' 0 8) rfl]
  exact extractLsb'_high_append_low _

/-- The CRC field of a frame is the CRC of its payload, so CRCCHK accepts it (rule R117). -/
theorem crc16_frameWindow (t : Payload) : crc16 (crcSpan (frameWindow t)) = 0#16 := by
  obtain ⟨-, hwindow⟩ := crcFieldMustBeTheCrcOfThePayload
  exact (hwindow _).2 (by rw [crcField_frameWindow, scrambledPayload_frameWindow])

theorem frameOf_length (t : Payload) : (frameOf t).length = 9 := rfl

theorem transmission_frameOf_length (t : Payload) : (transmission (frameOf t)).length = 160 := by
  rw [transmission_length, frameOf_length]

/-- The preamble byte and the first half of `19` are the pattern. -/
theorem matchesAt_transmission (t : Payload) : matchesAt (transmission (frameOf t)) 0 = true := rfl

theorem attemptAt_transmission (r : Payload) :
    attemptAt (transmission (frameOf (scramble r))) 0 = .ok (extractFields r) := by
  have hm : manchester (transmission (frameOf (scramble r))) (0 + 16) = (72, frameWindow (scramble r)) :=
    manchester_transmission (frameOf_length _)
  have hplain : descramble (scrambledPayload (frameWindow (scramble r))) = r := by
    rw [scrambledPayload_frameWindow, descramble_scramble]
  rw [attemptAt_of_valid hm (syncOk_frameWindow _) (crc16_frameWindow _), hplain]

/-- 160 bits hold one window, so no attempt but the first is accepted. -/
theorem attemptAt_transmission_ne_ok {t : Payload} {p : Nat} (hp : p ≠ 0) (x : Reading) :
    attemptAt (transmission (frameOf t)) p ≠ .ok x := by
  intro h
  obtain ⟨w, hm, -⟩ := (attemptAt_eq_ok_iff _ _ _).1 h
  have hin := le_length_of_full_window ((manchester_eq_full_iff _ _ _).1 hm)
  rw [transmission_frameOf_length] at hin
  omega

/-- In an increasing list that begins at 0, a function that is defined at 0 alone leaves one value. -/
theorem filterMap_eq_singleton {l : List Nat} {f : Nat → Option Reading} {x : Reading} (hl : l.Pairwise (· < ·))
    (h0 : 0 ∈ l) (hf : f 0 = some x) (hne : ∀ p, p ≠ 0 → f p = none) : l.filterMap f = [x] := by
  cases l with
  | nil => cases h0
  | cons p l =>
    obtain ⟨hlt, -⟩ := List.pairwise_cons.1 hl
    obtain rfl : p = 0 := by
      obtain h | h := List.mem_cons.1 h0
      · exact h.symm
      · exact absurd (hlt 0 h) (Nat.not_lt_zero p)
    have htail : l.filterMap f = [] := List.filterMap_eq_nil_iff.2 fun q hq => hne q (hlt q hq).ne'
    rw [List.filterMap_cons_some hf, htail]

theorem map_not_map_not (l : List Bool) : (l.map not).map not = l := by
  simp [Function.comp_def]

theorem process_transmission_readings (r : Payload) :
    (process ((transmission (frameOf (scramble r))).map not)).readings = [extractFields r] := by
  rw [process_readings, map_not_map_not]
  refine filterMap_eq_singleton (candidates_pairwise _) (mem_candidates.2 ⟨matchesAt_transmission _, ?_⟩) ?_
    fun p hp => ?_
  · rw [transmission_frameOf_length]
    decide
  · exact (toOption_eq_some_iff _ _).2 (attemptAt_transmission r)
  · exact Option.eq_none_iff_forall_ne_some.2 fun x hx =>
      attemptAt_transmission_ne_ok hp x ((toOption_eq_some_iff _ _).1 hx)

/-! ### Bits as the bytes the host writes -/

theorem byteBits_ofNat_natOfBits {l : List Bool} (hl : l.length = 8) : byteBits (BitVec.ofNat 8 (natOfBits l)) = l := by
  refine List.ext_getElem (by rw [byteBits_length, hl]) fun k hk _ => ?_
  have hk : k < 8 := hk
  have hbit := natOfBits_testBit l k (by omega)
  rw [hl] at hbit
  simp only [byteBits, List.getElem_map, List.getElem_range, byteBit, BitVec.getLsbD_ofNat]
  rw [show 7 - k = 8 - 1 - k by omega, hbit, decide_eq_true (by omega), Bool.true_and]

theorem byteBits_byteOfBits {l : List Bool} (hl : 8 ≤ l.length) : byteBits (byteOfBits l) = l.take 8 := by
  rw [byteOfBits, List.take_append_of_le_length hl, byteBits_ofNat_natOfBits (by simpa using hl)]

/-- Cutting a bit string into bytes loses nothing. -/
theorem bitsOfBytes_bytesOfBits (n : Nat) : ∀ l : List Bool, l.length = 8 * n → bitsOfBytes (bytesOfBits n l) = l := by
  induction n with
  | zero =>
    intro l hl
    obtain rfl : l = [] := List.length_eq_zero_iff.1 hl
    rfl
  | succ n ih =>
    intro l hl
    rw [bytesOfBits, bitsOfBytes_cons, byteBits_byteOfBits (by omega), ih _ (by rw [List.length_drop]; omega),
      List.take_append_drop]

theorem bytesOfBits_length (n : Nat) (l : List Bool) : (bytesOfBits n l).length = n := by
  induction n generalizing l with
  | zero => rfl
  | succ n ih => rw [bytesOfBits, List.length_cons, ih]

/-! ### The host loads the buffer -/

/-- What loading the bytes `bs` from byte `a` on leaves: the bytes in place and no longer waiting, the bytes below `a`
as they were, the sink untouched, and the inputs `rest` to come. -/
structure State.LoadsTo (s t : State) (a : Nat) (bs : List Byte) (rest : List Pins) : Prop where
  busy : t.busy = false
  inputs : t.inputs = rest
  nbitsMax : t.nbitsMax = s.nbitsMax
  emitted : t.emitted = s.emitted
  bytes : ∀ (j : Nat) (b : Byte), bs[j]? = some b → Memory.byte? t.buf (a + j) = some b
  below : ∀ c < a, Memory.byte? t.buf c = Memory.byte? s.buf c
  stale : ∀ c ∈ t.stale, c ∈ s.stale ∧ (c < a ∨ a + bs.length ≤ c)

theorem State.LoadsTo.nil {s : State} {a : Nat} {rest : List Pins} (hb : s.busy = false) (hin : s.inputs = rest) :
    s.LoadsTo s a [] rest where
  busy := hb
  inputs := hin
  nbitsMax := rfl
  emitted := rfl
  bytes := fun j b h => by simp at h
  below := fun _ _ => rfl
  stale := fun c hc => ⟨hc, Nat.lt_or_ge c a⟩

/-- One byte write in front of a load. -/
theorem State.LoadsTo.cons {s t : State} {a : Nat} {b : Byte} {bs : List Byte} {rest : List Pins}
    (hwf : Memory.wf s.buf) (hp : s.pins = Pins.write a b) (h : s.afterWrite.endEdge.LoadsTo t (a + 1) bs rest) :
    s.LoadsTo t a (b :: bs) rest := by
  have haddr : s.pins.hbAddr = a := by rw [hp]; rfl
  have hdata : s.pins.hbWdata = b := by rw [hp]; rfl
  have hbyte : ∀ c, Memory.byte? s.afterWrite.endEdge.buf c = if a = c then some b else Memory.byte? s.buf c :=
    fun c => by rw [State.endEdge_buf, State.afterWrite_buf, haddr, hdata, Memory.byte?_setByte _ _ _ _ hwf]
  refine ⟨h.busy, h.inputs, h.nbitsMax, h.emitted, fun j b' hj => ?_, fun c hc => ?_, fun c hc => ?_⟩
  · cases j with
    | zero =>
      obtain rfl : b = b' := by simpa using hj
      rw [Nat.add_zero, h.below a (Nat.lt_succ_self a), hbyte, if_pos rfl]
    | succ j =>
      rw [show a + (j + 1) = a + 1 + j by omega]
      exact h.bytes j b' (by simpa using hj)
  · rw [h.below c (by omega), hbyte, if_neg (by omega)]
  · obtain ⟨hmem, hside⟩ := h.stale c hc
    obtain ⟨hmem, hne⟩ := List.mem_filter.1 hmem
    have hne : c ≠ a := haddr ▸ of_decide_eq_true hne
    rw [List.length_cons]
    exact ⟨hmem, by omega⟩

/-- The host's byte writes, one a step (rule R181 (2)). -/
theorem steps_loadPins (bs : List Byte) : ∀ (s : State) (a : Nat) (rest : List Pins), s.busy = false →
    Memory.wf s.buf → a + bs.length ≤ byteCount s.nbitsMax → s.inputs = loadPins a bs ++ rest →
    ∃ t, steps bs.length s = .next t ∧ s.LoadsTo t a bs rest := by
  induction bs with
  | nil =>
    intro s a rest hb _ _ hin
    exact ⟨s, rfl, .nil hb hin⟩
  | cons b bs ih =>
    intro s a rest hb hwf hfit hin
    have hp : s.pins = Pins.write a b := by rw [State.pins, hin]; rfl
    have hstep : step s = .next s.afterWrite.endEdge := by
      refine step_of_write ?_ hb ?_ ?_ ?_ <;> rw [hp]
      · rfl
      · rfl
      · rfl
      · simp only [List.length_cons] at hfit
        simp only [Pins.write]
        omega
    have hin' : s.afterWrite.endEdge.inputs = loadPins (a + 1) bs ++ rest := congrArg List.tail hin
    obtain ⟨t, ht, hload⟩ := ih s.afterWrite.endEdge (a + 1) rest hb (Memory.wf_setByte _ _ hwf)
      (by rw [List.length_cons] at hfit; rw [Nat.add_assoc, Nat.add_comm 1]; exact hfit) hin'
    exact ⟨t, (steps_succ_of_step hstep _).trans ht, .cons hwf hp hload⟩

/-- The bits of bytes that are in place from address 0 on. -/
theorem readBits_of_bytes {m : Memory} {bs : List Byte}
    (h : ∀ (j : Nat) (b : Byte), bs[j]? = some b → Memory.byte? m j = some b) :
    Memory.readBits m 0 (8 * bs.length) = some (bitsOfBytes bs) := by
  refine (Memory.readBits_eq_some _ _ _ _).2 ⟨bitsOfBytes_length bs, fun i hi => ?_⟩
  have hbyte : bs[i / 8]? = some (bs[i / 8]'(by omega)) := List.getElem?_eq_getElem _
  have hplace := bitsOfBytes_getElem? bs (i / 8) (Nat.mod_lt i (by decide))
  rw [Nat.div_add_mod, hbyte] at hplace
  rw [Nat.zero_add, Memory.bit?, h _ _ hbyte, hplace]

/-! ### End to end -/

/-- The bytes the host writes for a transmission: 20, and their bits are the complement of its bits. -/
theorem event_of_transmission (t : Payload) :
    (eventOfInverted (transmission (frameOf t))).nbits = 160 ∧
      (eventOfInverted (transmission (frameOf t))).bytes.length = 20 ∧
      bitsOfBytes (eventOfInverted (transmission (frameOf t))).bytes = (transmission (frameOf t)).map not := by
  have hlen := transmission_frameOf_length t
  refine ⟨hlen, ?_, ?_⟩
  · rw [eventOfInverted, bytesOfBits_length, hlen]
    rfl
  · rw [eventOfInverted, hlen]
    exact bitsOfBytes_bytesOfBits _ _ (by rw [List.length_map, hlen]; rfl)

/-- Settles O55: the load puts the complemented transmission into the buffer, and the event on it has one reading. -/
theorem transmittedPacketIsReadOnce : Obligations.TransmittedPacketIsReadOnce := by
  unfold Obligations.TransmittedPacketIsReadOnce
  intro s r rest hb hwf hmax hin hrest
  obtain ⟨hn, hcount, hbits⟩ := event_of_transmission (scramble r)
  generalize eventOfInverted (transmission (frameOf (scramble r))) = e at hin hn hcount hbits
  rw [Event.pins, hn, List.append_assoc] at hin
  have hfit : 0 + e.bytes.length ≤ byteCount s.nbitsMax := by
    unfold byteCount
    omega
  obtain ⟨t, ht, hload⟩ := steps_loadPins e.bytes s 0 _ hb hwf hfit hin
  have hpins : t.pins = Pins.startWith 160 := by rw [State.pins, hload.inputs]; rfl
  have hnin : t.pins.nbitsIn = 160 := by rw [hpins]; rfl
  have hreset : t.NoReset := fun p hp => by
    rw [hload.inputs] at hp
    obtain hp | hp := List.mem_cons.1 hp
    · rw [hp]; rfl
    · exact hrest p hp
  have hread : Memory.readBits t.buf 0 t.pins.nbitsIn = some ((transmission (frameOf (scramble r))).map not) := by
    have hbytes := readBits_of_bytes fun j b hj => by simpa using hload.bytes j b hj
    rw [hcount, hbits] at hbytes
    rw [hnin]
    exact hbytes
  have hstale : ∀ a ∈ t.stale, t.pins.nbitsIn ≤ 8 * a := fun a ha => by
    obtain ⟨-, hside⟩ := hload.stale a ha
    omega
  obtain ⟨k, u, -, -, hu, hphase, -, hemitted, hec, -⟩ :=
    eventComputesProcessAndEnds t _ hload.busy (by rw [hpins]; rfl) hreset (by rw [hnin, hload.nbitsMax]; exact hmax) hread hstale
  rw [process_transmission_readings, hload.emitted] at hemitted
  rw [process_transmission_readings] at hec
  exact ⟨e.bytes.length + k, u, (steps_add ht k).trans hu, hphase, hemitted, hec⟩

end Sys2Proof.Machine
end
